-- ==== Sys2Proof/Word.lean ====
section
/-! DEFINITION. The word and the character of the machine: 16 bits and 8 bits (00_scope.md R5, R8, R13). -/

namespace Sys2Proof

/-- A register, a memory cell, an address or an instruction: 16 bits (R5, R8). -/
abbrev Word := BitVec 16

/-- A console character: 8 bits (R13). -/
abbrev Byte := BitVec 8

end Sys2Proof
end

