-- ==== Sys2Proof/Syntax.lean ====
section
/-! DEFINITION. The instructions of the machine: one constructor per row of spec/opcode_table.json. -/

namespace Sys2Proof

/-- The eight general registers, named R0 to R7 (10_state.md R20). -/
inductive Reg where
  | r0 | r1 | r2 | r3 | r4 | r5 | r6 | r7
deriving DecidableEq, Repr

/-- An instruction, with its operands as 30_encoding.md R81 names them. -/
inductive Instr where
  /-- BR: the condition bits n, z, p and PCoffset9 (R120). -/
  | br (n z p : Bool) (off : BitVec 9)
  /-- ADD, register form (R110). -/
  | addReg (dr sr1 sr2 : Reg)
  /-- ADD, immediate form (R110). -/
  | addImm (dr sr1 : Reg) (imm : BitVec 5)
  /-- LD (R130). -/
  | ld (dr : Reg) (off : BitVec 9)
  /-- ST (R134). -/
  | st (sr : Reg) (off : BitVec 9)
  /-- JSR (R122). -/
  | jsr (off : BitVec 11)
  /-- JSRR (R123). -/
  | jsrr (base : Reg)
  /-- AND, register form (R111). -/
  | andReg (dr sr1 sr2 : Reg)
  /-- AND, immediate form (R111). -/
  | andImm (dr sr1 : Reg) (imm : BitVec 5)
  /-- LDR (R132). -/
  | ldr (dr base : Reg) (off : BitVec 6)
  /-- STR (R136). -/
  | str (sr base : Reg) (off : BitVec 6)
  /-- RTI, fatal (R159). -/
  | rti
  /-- NOT (R112). -/
  | notReg (dr sr : Reg)
  /-- LDI (R131). -/
  | ldi (dr : Reg) (off : BitVec 9)
  /-- STI (R135). -/
  | sti (sr : Reg) (off : BitVec 9)
  /-- JMP through a base register other than R7 (R121). -/
  | jmp (base : Reg)
  /-- RET, the table's name for JMP through R7 (R121, R94). -/
  | ret
  /-- RES, the reserved opcode, fatal (R160). -/
  | res
  /-- LEA (R133). -/
  | lea (dr : Reg) (off : BitVec 9)
  /-- TRAP 0x20 (R152). -/
  | getc
  /-- TRAP 0x21 (R153). -/
  | out
  /-- TRAP 0x22 (R154). -/
  | puts
  /-- TRAP 0x23, the table's IN (R155). -/
  | inTrap
  /-- TRAP 0x24 (R156). -/
  | putsp
  /-- TRAP 0x25 (R157). -/
  | halt
  /-- TRAP with a vector outside 0x20 to 0x25, fatal (R158). -/
  | trapUndefined (vector : BitVec 8)
deriving DecidableEq, Repr

end Sys2Proof
end

