-- ==== Sys2Proof/WellFormed.lean ====
section
/-! DEFINITION. Which terms of `Instr` are the machine's own name of a word. -/

namespace Sys2Proof

/-- The six defined trap vectors (43_trap_and_illegal.md R150). -/
def definedVector (v : BitVec 8) : Bool := decide (0x20 ≤ v.toNat ∧ v.toNat ≤ 0x25)

/-- The checks of an instruction term. Every operand is exactly as wide as its field, so two checks are left:
JMP through R7 is written RET (R94, R121; log 20), and the fallback row of TRAP holds only the vectors that no
service has (R91, R158). -/
def WellFormed : Instr → Bool
  | .br _ _ _ _ => true
  | .addReg _ _ _ => true
  | .addImm _ _ _ => true
  | .ld _ _ => true
  | .st _ _ => true
  | .jsr _ => true
  | .jsrr _ => true
  | .andReg _ _ _ => true
  | .andImm _ _ _ => true
  | .ldr _ _ _ => true
  | .str _ _ _ => true
  | .rti => true
  | .notReg _ _ => true
  | .ldi _ _ => true
  | .sti _ _ => true
  | .jmp base => decide (base ≠ .r7)
  | .ret => true
  | .res => true
  | .lea _ _ => true
  | .getc => true
  | .out => true
  | .puts => true
  | .inTrap => true
  | .putsp => true
  | .halt => true
  | .trapUndefined v => !definedVector v

end Sys2Proof
end

