-- ==== Sys2Proof/Decode.lean ====
section
/-! DEFINITION. The decoder, the encoder and the opcode table's masks (30_encoding.md).

Opcode numbers and field positions are the generally published LC-3 ones, which the spec supplies
(decisions D1, D2). PRESUMED, log 4. -/

namespace Sys2Proof

/-! ### Fields -/

/-- The field of `len` bits whose lowest bit is bit `lo` (00_scope.md R7). -/
def field (w : Word) (lo len : Nat) : BitVec len := w.extractLsb' lo len

/-- The register a 3-bit field names (R81, R87). -/
def Reg.ofBits (b : BitVec 3) : Reg :=
  match b.toNat with
  | 0 => .r0
  | 1 => .r1
  | 2 => .r2
  | 3 => .r3
  | 4 => .r4
  | 5 => .r5
  | 6 => .r6
  | _ => .r7

/-- The number of a register, as its 3-bit field. -/
def Reg.bits : Reg → BitVec 3
  | .r0 => 0
  | .r1 => 1
  | .r2 => 2
  | .r3 => 3
  | .r4 => 4
  | .r5 => 5
  | .r6 => 6
  | .r7 => 7

/-- The 16 opcode classes (R86). -/
inductive Opcode where
  | br | add | ld | st | jsr | and | ldr | str | rti | not | ldi | sti | jmp | res | lea | trap
deriving DecidableEq, Repr

/-- The opcode map (R86): the class each value of `ir[15:12]` selects. -/
def Opcode.ofBits (b : BitVec 4) : Opcode :=
  match b.toNat with
  | 0 => .br
  | 1 => .add
  | 2 => .ld
  | 3 => .st
  | 4 => .jsr
  | 5 => .and
  | 6 => .ldr
  | 7 => .str
  | 8 => .rti
  | 9 => .not
  | 10 => .ldi
  | 11 => .sti
  | 12 => .jmp
  | 13 => .res
  | 14 => .lea
  | _ => .trap

/-- The opcode map read the other way. -/
def Opcode.bits : Opcode → BitVec 4
  | .br => 0
  | .add => 1
  | .ld => 2
  | .st => 3
  | .jsr => 4
  | .and => 5
  | .ldr => 6
  | .str => 7
  | .rti => 8
  | .not => 9
  | .ldi => 10
  | .sti => 11
  | .jmp => 12
  | .res => 13
  | .lea => 14
  | .trap => 15

/-- The opcode class of a word: its top 4 bits (R81). -/
def opcodeOf (ir : Word) : Opcode := Opcode.ofBits (field ir 12 4)

/-- The register field DR or SR, `ir[11:9]` (R81). -/
def fieldDR (ir : Word) : Reg := Reg.ofBits (field ir 9 3)

/-- The register field SR1, SR of NOT, or BaseR, `ir[8:6]` (R81). -/
def fieldSR1 (ir : Word) : Reg := Reg.ofBits (field ir 6 3)

/-- The register field SR2, `ir[2:0]` (R81). -/
def fieldSR2 (ir : Word) : Reg := Reg.ofBits (field ir 0 3)

/-! ### The decoder -/

/-- The trap service a vector names, or the undefined-vector instruction (R86, R150). -/
def decodeTrap (v : BitVec 8) : Instr :=
  match v.toNat with
  | 0x20 => .getc
  | 0x21 => .out
  | 0x22 => .puts
  | 0x23 => .inTrap
  | 0x24 => .putsp
  | 0x25 => .halt
  | _ => .trapUndefined v

/-- The jump through a base register; through R7 it is called RET (R94, R121). -/
def decodeJump (base : Reg) : Instr :=
  match base with
  | .r7 => .ret
  | .r0 => .jmp .r0
  | .r1 => .jmp .r1
  | .r2 => .jmp .r2
  | .r3 => .jmp .r3
  | .r4 => .jmp .r4
  | .r5 => .jmp .r5
  | .r6 => .jmp .r6

/-- The decoder: a pure and total function of the 16-bit word (R80, R86, R91). Bits a format does not use are not
looked at (R88, decision D13; DEDUCED, log 17). -/
def decode (ir : Word) : Instr :=
  match opcodeOf ir with
  | .br => .br (ir.getLsbD 11) (ir.getLsbD 10) (ir.getLsbD 9) (field ir 0 9)
  | .add =>
    if ir.getLsbD 5 then .addImm (fieldDR ir) (fieldSR1 ir) (field ir 0 5)
    else .addReg (fieldDR ir) (fieldSR1 ir) (fieldSR2 ir)
  | .ld => .ld (fieldDR ir) (field ir 0 9)
  | .st => .st (fieldDR ir) (field ir 0 9)
  | .jsr => if ir.getLsbD 11 then .jsr (field ir 0 11) else .jsrr (fieldSR1 ir)
  | .and =>
    if ir.getLsbD 5 then .andImm (fieldDR ir) (fieldSR1 ir) (field ir 0 5)
    else .andReg (fieldDR ir) (fieldSR1 ir) (fieldSR2 ir)
  | .ldr => .ldr (fieldDR ir) (fieldSR1 ir) (field ir 0 6)
  | .str => .str (fieldDR ir) (fieldSR1 ir) (field ir 0 6)
  | .rti => .rti
  | .not => .notReg (fieldDR ir) (fieldSR1 ir)
  | .ldi => .ldi (fieldDR ir) (field ir 0 9)
  | .sti => .sti (fieldDR ir) (field ir 0 9)
  | .jmp => decodeJump (fieldSR1 ir)
  | .res => .res
  | .lea => .lea (fieldDR ir) (field ir 0 9)
  | .trap => decodeTrap (field ir 0 8)

/-- Why a bit string is no instruction. -/
inductive DecodeError where
  /-- An instruction is one 16-bit word (R80): a string of another length, or a number that does not fit in it, is
  none. Raised by `decodeBits`; safe. -/
  | notOneWord (nbits : Nat)
deriving DecidableEq, Repr

/-- The decoder on a bit string given as its length and its value: total, and rejecting by name what is not one word
(R80, R92). -/
def decodeBits (nbits w : Nat) : Except DecodeError Instr :=
  if nbits = 16 ∧ w < 65536 then .ok (decode (BitVec.ofNat 16 w)) else .error (.notOneWord nbits)

/-- The instruction the decoder reads from an instruction word numbered as spec/opcode_table.json numbers it: every
row has one word, and bit 0 is its least significant bit. -/
def decodeTableWord (nbits w : Nat) : Option Instr :=
  match decodeBits nbits w with
  | .ok i => some i
  | .error _ => none

/-! ### The encoder -/

/-- One bit of a word. -/
def bit (b : Bool) : BitVec 1 := BitVec.ofBool b

/-- The word of an instruction (R82 to R85). Ignored bits get the value in brackets there, which an assembler
conventionally puts; RES has none given and gets zeros (PRESUMED, log 17: nothing in the machine depends on it). -/
def encode : Instr → Word
  | .br n z p off => 0b0000#4 ++ bit n ++ bit z ++ bit p ++ off
  | .addReg dr sr1 sr2 => 0b0001#4 ++ dr.bits ++ sr1.bits ++ 0b0#1 ++ 0b00#2 ++ sr2.bits
  | .addImm dr sr1 imm => 0b0001#4 ++ dr.bits ++ sr1.bits ++ 0b1#1 ++ imm
  | .ld dr off => 0b0010#4 ++ dr.bits ++ off
  | .st sr off => 0b0011#4 ++ sr.bits ++ off
  | .jsr off => 0b0100#4 ++ 0b1#1 ++ off
  | .jsrr base => 0b0100#4 ++ 0b0#1 ++ 0b00#2 ++ base.bits ++ 0b000000#6
  | .andReg dr sr1 sr2 => 0b0101#4 ++ dr.bits ++ sr1.bits ++ 0b0#1 ++ 0b00#2 ++ sr2.bits
  | .andImm dr sr1 imm => 0b0101#4 ++ dr.bits ++ sr1.bits ++ 0b1#1 ++ imm
  | .ldr dr base off => 0b0110#4 ++ dr.bits ++ base.bits ++ off
  | .str sr base off => 0b0111#4 ++ sr.bits ++ base.bits ++ off
  | .rti => 0b1000#4 ++ 0b000000000000#12
  | .notReg dr sr => 0b1001#4 ++ dr.bits ++ sr.bits ++ 0b111111#6
  | .ldi dr off => 0b1010#4 ++ dr.bits ++ off
  | .sti sr off => 0b1011#4 ++ sr.bits ++ off
  | .jmp base => 0b1100#4 ++ 0b000#3 ++ base.bits ++ 0b000000#6
  | .ret => 0b1100#4 ++ 0b000#3 ++ 0b111#3 ++ 0b000000#6
  | .res => 0b1101#4 ++ 0b000000000000#12
  | .lea dr off => 0b1110#4 ++ dr.bits ++ off
  | .getc => 0b1111#4 ++ 0b0000#4 ++ 0x20#8
  | .out => 0b1111#4 ++ 0b0000#4 ++ 0x21#8
  | .puts => 0b1111#4 ++ 0b0000#4 ++ 0x22#8
  | .inTrap => 0b1111#4 ++ 0b0000#4 ++ 0x23#8
  | .putsp => 0b1111#4 ++ 0b0000#4 ++ 0x24#8
  | .halt => 0b1111#4 ++ 0b0000#4 ++ 0x25#8
  | .trapUndefined v => 0b1111#4 ++ 0b0000#4 ++ v

/-! ### The opcode table's masks -/

/-- A row of the opcode table (R91): a word `w` selects it when `w &&& mask = pattern`. -/
structure OpcodeRow where
  /-- The row's `mask`. -/
  mask : Word
  /-- The row's `match`. -/
  pattern : Word
  /-- The bits of the word that are ignored in this row's format (R88). -/
  ignored : Word
deriving DecidableEq, Repr

/-- Whether a word selects a row (R91). -/
def OpcodeRow.selects (row : OpcodeRow) (w : Word) : Bool := decide (w &&& row.mask = row.pattern)

/-- The row of each instruction, from spec/opcode_table.json (R91); `ignored` is its `x` bits. -/
def rowOf : Instr → OpcodeRow
  | .br _ _ _ _ => ⟨0xF000, 0x0000, 0x0000⟩
  | .addReg _ _ _ => ⟨0xF020, 0x1000, 0x0018⟩
  | .addImm _ _ _ => ⟨0xF020, 0x1020, 0x0000⟩
  | .ld _ _ => ⟨0xF000, 0x2000, 0x0000⟩
  | .st _ _ => ⟨0xF000, 0x3000, 0x0000⟩
  | .jsr _ => ⟨0xF800, 0x4800, 0x0000⟩
  | .jsrr _ => ⟨0xF800, 0x4000, 0x063F⟩
  | .andReg _ _ _ => ⟨0xF020, 0x5000, 0x0018⟩
  | .andImm _ _ _ => ⟨0xF020, 0x5020, 0x0000⟩
  | .ldr _ _ _ => ⟨0xF000, 0x6000, 0x0000⟩
  | .str _ _ _ => ⟨0xF000, 0x7000, 0x0000⟩
  | .rti => ⟨0xF000, 0x8000, 0x0FFF⟩
  | .notReg _ _ => ⟨0xF000, 0x9000, 0x003F⟩
  | .ldi _ _ => ⟨0xF000, 0xA000, 0x0000⟩
  | .sti _ _ => ⟨0xF000, 0xB000, 0x0000⟩
  | .jmp _ => ⟨0xF000, 0xC000, 0x0E3F⟩
  | .ret => ⟨0xF1C0, 0xC1C0, 0x0E3F⟩
  | .res => ⟨0xF000, 0xD000, 0x0FFF⟩
  | .lea _ _ => ⟨0xF000, 0xE000, 0x0000⟩
  | .getc => ⟨0xF0FF, 0xF020, 0x0F00⟩
  | .out => ⟨0xF0FF, 0xF021, 0x0F00⟩
  | .puts => ⟨0xF0FF, 0xF022, 0x0F00⟩
  | .inTrap => ⟨0xF0FF, 0xF023, 0x0F00⟩
  | .putsp => ⟨0xF0FF, 0xF024, 0x0F00⟩
  | .halt => ⟨0xF0FF, 0xF025, 0x0F00⟩
  | .trapUndefined _ => ⟨0xF000, 0xF000, 0x0F00⟩

end Sys2Proof
end

