-- ==== Sys2Proof/Config.lean ====
section
/-! DEFINITION. What the spec leaves to a parameter (00_scope.md R6) and the one free value of the model. -/

namespace Sys2Proof

/-- `KBSR_POLL_MODE` (R52, decision D5): what a poll does with bits 14:0 of the status word. -/
inductive PollMode where
  /-- Only bit 15 changes (the default). -/
  | bit15Only
  /-- The poll stores 0x8000 or 0x0000. -/
  | wholeWord
deriving DecidableEq, Repr

/-- The named parameters of R6 that no step changes. `INIT_MEM`, the third one, is the memory a state holds when
execution starts. -/
structure Params where
  /-- `KBSR_POLL_MODE`. -/
  pollMode : PollMode
  /-- `IN_PROMPT`, the characters the IN service writes first (R155). -/
  inPrompt : List Byte
deriving DecidableEq, Repr

namespace Config

/-- The 19 characters `Enter a character: ` in ASCII, the default of `IN_PROMPT` (R6, R155, decision D15).
PRESUMED, log 6: the spec takes the text from general knowledge. -/
def defaultPrompt : List Byte :=
  [0x45, 0x6E, 0x74, 0x65, 0x72, 0x20, 0x61, 0x20, 0x63, 0x68] ++
  [0x61, 0x72, 0x61, 0x63, 0x74, 0x65, 0x72, 0x3A, 0x20]

/-- The defaults of R6. DESIGN CHOICE, log 6: a claim over all states holds for every value of the parameters. -/
def defaultParams : Params := { pollMode := .bit15Only, inPrompt := defaultPrompt }

/-- FREE VALUE (R13, U16): once n keys were found by answers the state does not list, how many polls in a row find none
before the next key is found while a character is unread; `none` when no poll finds it. Every pattern of answers is
such a sequence of waits. No body: nothing can be proved of its value. DESIGN CHOICE, log 10. -/
opaque pollsBeforeKey : Nat → Option Nat

end Config

end Sys2Proof
end

