-- ==== Sys2Proof/Machine/State.lean ====
section
/-! DEFINITION. The state of the machine as plain data (10_state.md), and the state after reset. -/

namespace Sys2Proof.Machine

/-- The eight general registers, 16 bits each (R20). -/
structure RegFile where
  r0 : Word
  r1 : Word
  r2 : Word
  r3 : Word
  r4 : Word
  r5 : Word
  r6 : Word
  r7 : Word
deriving DecidableEq, Repr

/-- The condition-flag register COND, also called PSR: exactly one of three values (R26, R29). -/
inductive Cond where
  /-- N. -/
  | negative
  /-- Z. -/
  | zero
  /-- P. -/
  | positive
deriving DecidableEq, Repr

/-- The causes of a fatal condition (R181). -/
inductive Cause where
  /-- RTI or the reserved opcode (R159, R160). -/
  | illegalOpcode
  /-- TRAP with a vector no service has (R158). -/
  | illegalTrapVector
  /-- A console operation answered `fail` (R13). -/
  | ioFailure
deriving DecidableEq, Repr

/-- The run state RUN (R32). -/
inductive Run where
  | running
  | halted
  | faulted (cause : Cause)
deriving DecidableEq, Repr

/-- The memory MEM (R35): the words that differ from what an unlisted address reads as, as pairs of an address and a
word, in rising order of the addresses. The smallest thing an address names is a 16-bit word (R57), so a cell holds a
word. DEDUCED, log 1. -/
abbrev Memory := List (Nat × Word)

/-- What an address that is not listed reads as: the default of INIT_MEM (R6, R35, decision D10). DESIGN CHOICE of
the spec, log 2. -/
def unlistedWord : Word := 0

/-- The console (R13, R36): what it will answer, and what was written to it. The fields `input`,
`keyReady` and `failAfter` are inputs of the run; every field may hold anything at the start of a run. DESIGN CHOICE, log 9. -/
structure Console where
  /-- The characters `ConsoleRead` will still deliver, oldest first. -/
  input : List Byte
  /-- The answers of the next `ConsoleAvail`s, as long as a character is unread. -/
  keyReady : List Bool
  /-- How many `ConsoleAvail`s were answered. -/
  polls : Nat
  /-- How many keys were found by answers that the list above did not give; the next of these comes after
  `Config.pollsBeforeKey` of this number. -/
  keysFound : Nat
  /-- How many such answers in a row, the last ones, found no key. -/
  idlePolls : Nat
  /-- How many console operations are still answered before one answers `fail`; `none` when none will. -/
  failAfter : Option Nat
  /-- The characters written so far, oldest first. -/
  output : List Byte
deriving DecidableEq, Repr

/-- Where a step that has not completed is held (R15, R161, R194). DESIGN CHOICE, logs 11 and 12. -/
inductive Held where
  /-- GETC waits for a character. -/
  | getcRead
  /-- IN has written its prompt and waits for a character. -/
  | inRead
  /-- PUTS goes on at this address. -/
  | putsAt (p : Word)
  /-- PUTSP goes on at this address. -/
  | putspAt (p : Word)
deriving DecidableEq, Repr

/-- Everything the spec gives the machine (10_state.md), with the console and the parameters of R6. The keyboard
words KBSR and KBDR are the words 0xFE00 and 0xFE02 of `mem` and stand nowhere else (R30, R31). -/
structure State where
  /-- R0 to R7 (R20). -/
  regs : RegFile
  /-- PC (R23). -/
  pc : Word
  /-- COND (R26). -/
  cond : Cond
  /-- RUN (R32). -/
  run : Run
  /-- MEM (R35). -/
  mem : Memory
  /-- The console (R36). -/
  console : Console
  /-- The step in progress, if one is held (R15). -/
  held : Option Held
  /-- The parameters of R6; no step changes them. -/
  params : Params
deriving DecidableEq, Repr

/-- No step of this machine ends in a fault: a fatal condition is a next state whose RUN is FAULTED(cause), as R14
and R186 describe it (log 19). So there is no fault reason; nothing raises one, and that is safe. -/
inductive Fault where
deriving DecidableEq, Repr

/-- Why the model gives an instruction no meaning. -/
inductive Refusal where
  /-- Raised by `exec` for an instruction that has no meaning yet; no arm does. Safe. -/
  | notModelled (mnemonic : String)
deriving DecidableEq, Repr

/-- Every register 0x0000 (R20, decision D8; log 3). -/
def RegFile.reset : RegFile := ⟨0, 0, 0, 0, 0, 0, 0, 0⟩

/-- A console nothing was read from or written to (R36, R38), with no input yet and no failure to come (DESIGN
CHOICE, log 9). -/
def Console.reset : Console where
  input := []
  keyReady := []
  polls := 0
  keysFound := 0
  idlePolls := 0
  failAfter := none
  output := []

/-- The machine after reset (R38): R0 to R7 = 0x0000 and COND = Z by the spec's decisions D8 and D9 (log 3),
PC = 0x3000, RUN = RUNNING, memory as INIT_MEM's default (log 2), the default parameters (log 6). -/
def State.reset : State where
  regs := RegFile.reset
  pc := 0x3000
  cond := .zero
  run := .running
  mem := []
  console := Console.reset
  held := none
  params := Config.defaultParams

end Sys2Proof.Machine
end

