-- ==== Sys2Proof/Machine/Flags.lean ====
section
/-! DEFINITION. The condition flags: the one rule that sets them and the one test that reads them. -/

namespace Sys2Proof.Machine

/-- The value `setcc` gives COND (R12): Z for 0, N when bit 15 is 1, else P. -/
def condOf (v : Word) : Cond :=
  if v = 0 then .zero else if v.msb then .negative else .positive

/-- `setcc(v)` (R12, R28). -/
def setcc (v : Word) (s : State) : State := { s with cond := condOf v }

/-- The one-hot code of COND (R26): N = 0b100, Z = 0b010, P = 0b001. The positions are the published LC-3 ones
(decision D3; PRESUMED, log 4). -/
def Cond.code : Cond → BitVec 3
  | .negative => 0b100
  | .zero => 0b010
  | .positive => 0b001

/-- BR's test (R120): the condition field, n from the left, and COND have a bit in common. -/
def branchTaken (n z p : Bool) (c : Cond) : Bool :=
  decide ((BitVec.ofBool n ++ BitVec.ofBool z ++ BitVec.ofBool p) &&& c.code ≠ 0#3)

end Sys2Proof.Machine
end

