-- ==== Sys2Proof/Machine/Operands.lean ====
section
/-! DEFINITION. How fields, characters and words become operands (00_scope.md R8 to R10, 30_encoding.md R87). -/

namespace Sys2Proof.Machine

/-- `sext_N(v)` (R9): one routine for all four widths. -/
def sext {n : Nat} (v : BitVec n) : Word := v.signExtend 16

/-- `zext_8(c)` (R10, decision D7; DEDUCED, log 8). -/
def zext8 (c : Byte) : Word := c.setWidth 16

/-- The low byte `w[7:0]` (R7). -/
def lowByte (w : Word) : Byte := w.extractLsb' 0 8

/-- The high byte `w[15:8]` (R7). -/
def highByte (w : Word) : Byte := w.extractLsb' 8 8

/-- An address formed from a base and a sign-extended offset, modulo 65,536 (R56, R137). The base is the PC, which
is the address of the instruction plus one, or a register. -/
def addressAt {n : Nat} (base : Word) (off : BitVec n) : Word := base + sext off

/-- The keyboard status word's address (R30, decision D4; DEDUCED, log 5). -/
def kbsr : Word := 0xFE00

/-- The keyboard data word's address (R31, decision D4; DEDUCED, log 5). -/
def kbdr : Word := 0xFE02

end Sys2Proof.Machine
end

