-- ==== Sys2Proof/Machine/Ops.lean ====
section
/-! DEFINITION. The named operations over registers, memory and the console that every meaning is written with
(00_scope.md R11, R13, R14; 20_memory.md R51, R52, R55). -/

namespace Sys2Proof.Machine

/-! ### Registers -/

/-- Read a register (R20). -/
def RegFile.get (f : RegFile) : Reg → Word
  | .r0 => f.r0
  | .r1 => f.r1
  | .r2 => f.r2
  | .r3 => f.r3
  | .r4 => f.r4
  | .r5 => f.r5
  | .r6 => f.r6
  | .r7 => f.r7

/-- Write a register (R20). -/
def RegFile.set (f : RegFile) (r : Reg) (v : Word) : RegFile :=
  match r with
  | .r0 => { f with r0 := v }
  | .r1 => { f with r1 := v }
  | .r2 => { f with r2 := v }
  | .r3 => { f with r3 := v }
  | .r4 => { f with r4 := v }
  | .r5 => { f with r5 := v }
  | .r6 => { f with r6 := v }
  | .r7 => { f with r7 := v }

/-- `R[i]` (R11). -/
def State.reg (s : State) (r : Reg) : Word := s.regs.get r

/-- `R[i] <- v` (R11). -/
def writeReg (r : Reg) (v : Word) (s : State) : State := { s with regs := s.regs.set r v }

/-- `PC <- v` (R11). -/
def writePc (v : Word) (s : State) : State := { s with pc := v }

/-- The destination of the seven flag-setting instructions: write the register, then `setcc` of its new value (R28). -/
def writeRegCC (r : Reg) (v : Word) (s : State) : State := setcc v (writeReg r v s)

/-! ### The stored words -/

/-- The word a memory holds at an address. -/
def Memory.lookup : Memory → Nat → Word
  | [], _ => unlistedWord
  | (k, w) :: m, a => if a = k then w else Memory.lookup m a

/-- A memory without an entry for an address. -/
def Memory.remove (m : Memory) (a : Nat) : Memory := m.filter (fun cell => decide (cell.1 ≠ a))

/-- Put an entry before the first greater address. -/
def Memory.insert (a : Nat) (v : Word) : Memory → Memory
  | [] => [(a, v)]
  | (k, w) :: m => if a < k then (a, v) :: (k, w) :: m else (k, w) :: Memory.insert a v m

/-- The memory with one word replaced, in canonical form again. -/
def Memory.store (m : Memory) (a : Nat) (v : Word) : Memory :=
  if v = unlistedWord then m.remove a else (m.remove a).insert a v

/-- Every address is at least `lo` and inside the address space, addresses rise strictly, and no entry equals what an
unlisted address reads as. -/
def Memory.wfFrom : Nat → Memory → Bool
  | _, [] => true
  | lo, (k, w) :: m => decide (lo ≤ k ∧ k < 65536 ∧ w ≠ unlistedWord) && Memory.wfFrom (k + 1) m

/-- The canonical form of a memory: equal memories are equal data. -/
def Memory.wf (m : Memory) : Bool := Memory.wfFrom 0 m

/-- `MEM[a]`, the stored word with no side effect (R11, R35). -/
def State.word (s : State) (a : Word) : Word := Memory.lookup s.mem a.toNat

/-- `MemWrite(a, v)` (R55): an unconditional store; it has no side effect and cannot fail. -/
def memWrite (a v : Word) (s : State) : State := { s with mem := Memory.store s.mem a.toNat v }

/-! ### Ending a step -/

/-- How an operation of a step ends: with a value, so that the step goes on, or with the step stopped there. -/
inductive Result (α : Type) where
  /-- The operation answered; the step goes on. -/
  | done (a : α) (s : State)
  /-- The step ends in this state: a fatal condition was raised, or the step is held. -/
  | stopped (s : State)
deriving DecidableEq, Repr

/-- What is done next, unless the step has stopped (R14: nothing after the raising point is performed). -/
def Result.andThen {α β : Type} (r : Result α) (k : α → State → Result β) : Result β :=
  match r with
  | .done a s => k a s
  | .stopped s => .stopped s

/-- The last thing a step does, unless it has stopped. -/
def Result.finish {α : Type} (r : Result α) (k : α → State → State) : State :=
  match r with
  | .done a s => k a s
  | .stopped s => s

/-- The state a step leaves when nothing is left to do. -/
def Result.state {α : Type} (r : Result α) : State := r.finish (fun _ s => s)

/-- `raise Fatal(cause)` (R14, R186): RUN becomes FAULTED(cause) and nothing else changes. Nothing is saved and
control goes nowhere; the effects performed before it stay. -/
def raiseFatal (c : Cause) (s : State) : State := { s with run := .faulted c }

/-- `RUN <- HALTED` (R157). -/
def haltCore (s : State) : State := { s with run := .halted }

/-- The step in progress is held at a point of its pseudocode (R15). -/
def holdAt (h : Held) (s : State) : State := { s with held := some h }

/-- Reset, the only way out of HALTED and FAULTED (R188, R210): registers, PC, COND and RUN get their reset values, the step
in progress is dropped, memory is not touched, and nothing has been written to the console. What the console will
deliver and the parameters are outside the core and stay. There is no return from a fatal condition (R188). -/
def applyReset (s : State) : State :=
  { s with
    regs := RegFile.reset, pc := 0x3000, cond := .zero, run := .running, held := none
    console := { s.console with output := [] } }

/-! ### The console -/

/-- The numeric code of a cause (R181, decision D11). -/
def Cause.code : Cause → Nat
  | .illegalOpcode => 1
  | .illegalTrapVector => 2
  | .ioFailure => 3

/-- One console operation is answered: `none` when the answer is `fail` (R13). -/
def Console.answer (c : Console) : Option Console :=
  match c.failAfter with
  | none => some c
  | some 0 => none
  | some (n + 1) => some { c with failAfter := some n }

/-- The free answer of a `ConsoleAvail` for which the state lists none: a key, once enough polls found none. -/
def Console.freeAnswer (c : Console) : Bool :=
  match Config.pollsBeforeKey c.keysFound with
  | none => false
  | some n => decide (n ≤ c.idlePolls)

/-- What the next `ConsoleAvail` finds: never a key when no character is unread; else the next listed answer, or the
free answer when none is listed (R13, U16; log 10). -/
def Console.findsKey (c : Console) : Bool :=
  match c.input with
  | [] => false
  | _ :: _ =>
    match c.keyReady with
    | [] => c.freeAnswer
    | b :: _ => b

/-- Whether the next `ConsoleAvail` has a free answer: a character is unread and no answer is listed. -/
def Console.answersFreely (c : Console) : Bool := c.keyReady.isEmpty && !c.input.isEmpty

/-- A console after one `ConsoleAvail`. -/
def Console.polled (c : Console) : Console :=
  { c with
    keyReady := c.keyReady.tail
    polls := c.polls + 1
    keysFound := if c.answersFreely && c.freeAnswer then c.keysFound + 1 else c.keysFound
    idlePolls := if c.answersFreely then (if c.freeAnswer then 0 else c.idlePolls + 1) else c.idlePolls }

/-- `ConsoleAvail()` (R13): is a key available now. -/
def consoleAvail (s : State) : Result Bool :=
  match s.console.answer with
  | none => .stopped (raiseFatal .ioFailure s)
  | some c => .done c.findsKey { s with console := c.polled }

/-- `ConsoleRead()` (R13): takes the oldest unread character. When none is unread and the console does not fail, the
step goes to `waiting` (R15). -/
def consoleRead (waiting : State → State) (s : State) : Result Byte :=
  match s.console.answer with
  | none => .stopped (raiseFatal .ioFailure s)
  | some c =>
    match c.input with
    | [] => .stopped (waiting s)
    | ch :: rest => .done ch { s with console := { c with input := rest } }

/-- `ConsoleWrite(c)` (R13): appends a character to the output. -/
def consoleWrite (ch : Byte) (s : State) : Result Unit :=
  match s.console.answer with
  | none => .stopped (raiseFatal .ioFailure s)
  | some c => .done () { s with console := { c with output := c.output ++ [ch] } }

/-- `ConsoleFlush()` (R13): changes no state, and may fail (decision D20; log 16). -/
def consoleFlush (s : State) : Result Unit :=
  match s.console.answer with
  | none => .stopped (raiseFatal .ioFailure s)
  | some c => .done () { s with console := c }

/-- `ConsoleWrite` of each character, first to last. -/
def consoleWriteAll : List Byte → State → Result Unit
  | [], s => .done () s
  | ch :: rest, s => (consoleWrite ch s).andThen fun _ s1 => consoleWriteAll rest s1

/-! ### The keyboard adapter -/

/-- The status word after a poll that found a key (R52, decision D5). -/
def statusReady (mode : PollMode) (w : Word) : Word :=
  match mode with
  | .bit15Only => w ||| 0x8000
  | .wholeWord => 0x8000

/-- The status word after a poll that found none (R52, decision D5). -/
def statusIdle (mode : PollMode) (w : Word) : Word :=
  match mode with
  | .bit15Only => w &&& 0x7FFF
  | .wholeWord => 0x0000

/-- `KeyboardPoll()` (R52, R53). After `ConsoleAvail` answered true a character is unread, so the read answers at
once: it never waits (`consoleAvail_true_unread` in Laws), and the waiting case is given the one other answer, a failure. -/
def keyboardPoll (s : State) : Result Unit :=
  (consoleAvail s).andThen fun found s1 =>
    if found then
      (consoleRead (raiseFatal .ioFailure) (memWrite kbsr (statusReady s1.params.pollMode (s1.word kbsr)) s1)).andThen
        fun ch s2 => .done () (memWrite kbdr (zext8 ch) s2)
    else
      .done () (memWrite kbsr (statusIdle s1.params.pollMode (s1.word kbsr)) s1)

/-- `MemRead(a)` (R51): the stored word, after the keyboard update when the address is KBSR. Every read the core
makes is this one (R61, decision D6; DEDUCED, log 7). -/
def memRead (a : Word) (s : State) : Result Word :=
  if a = kbsr then (keyboardPoll s).andThen fun _ s1 => .done (s1.word a) s1
  else .done (s.word a) s

/-! ### The fetch -/

/-- The state in which an instruction's effects begin: the PC is past the instruction (R23, R60). -/
def pcPast (s : State) : State := writePc (s.pc + 1) s

/-- The fetch of R60: increment the PC, then read the word at the old PC (R61; decision D12 for the order). -/
def fetch (s : State) : Result Word := memRead s.pc (pcPast s)

end Sys2Proof.Machine
end

