-- ==== Sys2Proof/Machine/Alu.lean ====
section
/-! DEFINITION. ADD, AND, NOT (40_alu.md). -/

namespace Sys2Proof.Machine

/-- ADD, register form (R110). -/
def execAddReg (dr sr1 sr2 : Reg) (s : State) : Host.Outcome State Fault Refusal :=
  .next (writeRegCC dr (s.reg sr1 + s.reg sr2) s)

/-- ADD, immediate form (R110). -/
def execAddImm (dr sr1 : Reg) (imm : BitVec 5) (s : State) : Host.Outcome State Fault Refusal :=
  .next (writeRegCC dr (s.reg sr1 + sext imm) s)

/-- AND, register form (R111). -/
def execAndReg (dr sr1 sr2 : Reg) (s : State) : Host.Outcome State Fault Refusal :=
  .next (writeRegCC dr (s.reg sr1 &&& s.reg sr2) s)

/-- AND, immediate form (R111). -/
def execAndImm (dr sr1 : Reg) (imm : BitVec 5) (s : State) : Host.Outcome State Fault Refusal :=
  .next (writeRegCC dr (s.reg sr1 &&& sext imm) s)

/-- NOT (R112). -/
def execNotReg (dr sr : Reg) (s : State) : Host.Outcome State Fault Refusal :=
  .next (writeRegCC dr (~~~ s.reg sr) s)

end Sys2Proof.Machine
end

