-- ==== Sys2Proof/Machine/Control.lean ====
section
/-! DEFINITION. BR, JMP, RET, JSR, JSRR (41_control.md). The state's PC is the address of the instruction plus one. -/

namespace Sys2Proof.Machine

/-- BR (R120). -/
def execBr (n z p : Bool) (off : BitVec 9) (s : State) : Host.Outcome State Fault Refusal :=
  .next (if branchTaken n z p s.cond then writePc (addressAt s.pc off) s else s)

/-- `PC <- R[BaseR]` (R121). -/
def jumpThrough (base : Reg) (s : State) : State := writePc (s.reg base) s

/-- `R[7] <- PC`, the link of JSR and JSRR (R122, R123). -/
def linkR7 (s : State) : State := writeReg .r7 s.pc s

/-- JMP (R121). -/
def execJmp (base : Reg) (s : State) : Host.Outcome State Fault Refusal := .next (jumpThrough base s)

/-- RET: JMP through R7 (R121). -/
def execRet (s : State) : Host.Outcome State Fault Refusal := .next (jumpThrough .r7 s)

/-- JSR (R122): the link, then the target, which does not depend on R7. -/
def execJsr (off : BitVec 11) (s : State) : Host.Outcome State Fault Refusal :=
  .next (writePc (addressAt s.pc off) (linkR7 s))

/-- JSRR (R123): the link first, then the base register is read, so that through R7 the call falls through
(decision D18; DEDUCED, log 13). -/
def execJsrr (base : Reg) (s : State) : Host.Outcome State Fault Refusal := .next (jumpThrough base (linkR7 s))

end Sys2Proof.Machine
end

