-- ==== Sys2Proof/Machine/LoadStore.lean ====
section
/-! DEFINITION. LD, LDI, LDR, LEA, ST, STI, STR (42_load_store.md). The state's PC is the address of the instruction
plus one. -/

namespace Sys2Proof.Machine

/-- Read a word into a register and set the flags from it (R130, R132): nothing is written when the read stops the
step. -/
def loadInto (dr : Reg) (a : Word) (s : State) : State := (memRead a s).finish fun v s1 => writeRegCC dr v s1

/-- LD (R130). -/
def execLd (dr : Reg) (off : BitVec 9) (s : State) : Host.Outcome State Fault Refusal :=
  .next (loadInto dr (addressAt s.pc off) s)

/-- LDI (R131): the pointer, then the data, both read through the adapter. -/
def execLdi (dr : Reg) (off : BitVec 9) (s : State) : Host.Outcome State Fault Refusal :=
  .next ((memRead (addressAt s.pc off) s).finish fun p s1 => loadInto dr p s1)

/-- LDR (R132). -/
def execLdr (dr base : Reg) (off : BitVec 6) (s : State) : Host.Outcome State Fault Refusal :=
  .next (loadInto dr (addressAt (s.reg base) off) s)

/-- LEA (R133): no memory access; the flags are set. -/
def execLea (dr : Reg) (off : BitVec 9) (s : State) : Host.Outcome State Fault Refusal :=
  .next (writeRegCC dr (addressAt s.pc off) s)

/-- ST (R134). -/
def execSt (sr : Reg) (off : BitVec 9) (s : State) : Host.Outcome State Fault Refusal :=
  .next (memWrite (addressAt s.pc off) (s.reg sr) s)

/-- STI (R135): nothing is stored when the pointer read stops the step. -/
def execSti (sr : Reg) (off : BitVec 9) (s : State) : Host.Outcome State Fault Refusal :=
  .next ((memRead (addressAt s.pc off) s).finish fun p s1 => memWrite p (s1.reg sr) s1)

/-- STR (R136). -/
def execStr (sr base : Reg) (off : BitVec 6) (s : State) : Host.Outcome State Fault Refusal :=
  .next (memWrite (addressAt (s.reg base) off) (s.reg sr) s)

end Sys2Proof.Machine
end

