-- ==== Sys2Proof/Machine/Trap.lean ====
section
/-! DEFINITION. The trap services, the undefined vector, RTI and the reserved opcode (43_trap_and_illegal.md), and how
a held step goes on. No service writes R7, changes the PC or sets the flags (R150; decision D14, log 14). -/

namespace Sys2Proof.Machine

/-! ### Character input -/

/-- GETC from its read on (R152). -/
def getcRead (s : State) : State :=
  (consoleRead (holdAt .getcRead) s).finish fun ch s1 => writeReg .r0 (zext8 ch) s1

/-- GETC (R152). -/
def execGetc (s : State) : Host.Outcome State Fault Refusal := .next (getcRead s)

/-- IN from its read on (R155): read, echo, flush, and only then write R0. -/
def inRead (s : State) : State :=
  ((consoleRead (holdAt .inRead) s).andThen fun ch s1 =>
    (consoleWrite ch s1).andThen fun _ s2 =>
      (consoleFlush s2).andThen fun _ s3 => .done ch s3).finish
    fun ch s4 => writeReg .r0 (zext8 ch) s4

/-- IN (R155): the prompt, a flush, then the read. -/
def execInTrap (s : State) : Host.Outcome State Fault Refusal :=
  .next (((consoleWriteAll s.params.inPrompt s).andThen fun _ s1 => consoleFlush s1).finish fun _ s2 => inRead s2)

/-! ### Character output -/

/-- OUT (R153). -/
def execOut (s : State) : Host.Outcome State Fault Refusal :=
  .next ((consoleWrite (lowByte (s.reg .r0)) s).andThen fun _ s1 => consoleFlush s1).state

/-- What PUTS writes of a word (R154). -/
def putsChars (w : Word) : List Byte := [lowByte w]

/-- What PUTSP writes of a word (R156): the low byte always, then the high byte when it is not zero. -/
def putspChars (w : Word) : List Byte := if highByte w = 0 then [lowByte w] else [lowByte w, highByte w]

/-- The loop of PUTS and PUTSP (R154, R156, R161): read a word through the adapter, stop at the word 0x0000, else
write its characters and go on at the next address. The number is how many words are read before `atEnd` decides. -/
def stringLoop (chars : Word → List Byte) (atEnd : Word → State → Result Unit) : Nat → Word → State → Result Unit
  | 0, p, s => atEnd p s
  | n + 1, p, s =>
    (memRead p s).andThen fun w s1 =>
      if w = 0 then consoleFlush s1
      else (consoleWriteAll (chars w) s1).andThen fun _ s2 => stringLoop chars atEnd n (p + 1) s2

/-- How many polls with free answers find `unread` keys at most, when `found` were found before. -/
def pollsToFind (found : Nat) : Nat → Nat
  | 0 => 0
  | unread + 1 => (Config.pollsBeforeKey found).getD 0 + 1 + pollsToFind (found + 1) unread

/-- A number of polls after which no poll finds a key any more, unless a character arrives. -/
def Console.pollsToSettle (c : Console) : Nat := c.keyReady.length + pollsToFind c.keysFound c.input.length

/-- A number of words within which the loop of a string service ends if it ends at all (R15, R161; log 12). Every
word writes a character, so a console that will fail ends the loop in time; else every round of 65,536 words polls
once, and a round without a zero word in which no key is left to be found is repeated for ever. -/
def stringBound (c : Console) : Nat :=
  match c.failAfter with
  | some n => n + 1
  | none => 65536 * (c.pollsToSettle + 2)

/-- A string service that never ends is held at the next address (R161 b; DESIGN CHOICE, log 12). -/
def holdString (resumeAt : Word → Held) (p : Word) (s : State) : Result Unit := .stopped (holdAt (resumeAt p) s)

/-- The whole loop in one step (R15, R161): a round over all addresses, which ends every string with a zero word ahead,
and then as many words as can matter. It is held only when the loop never ends. -/
def stringService (chars : Word → List Byte) (resumeAt : Word → Held) (p : Word) (s : State) : Result Unit :=
  stringLoop chars (fun q t => stringLoop chars (holdString resumeAt) (stringBound t.console) q t) 65536 p s

/-- PUTS from an address on (R154). -/
def putsFrom (p : Word) (s : State) : State := (stringService putsChars .putsAt p s).state

/-- PUTSP from an address on (R156). -/
def putspFrom (p : Word) (s : State) : State := (stringService putspChars .putspAt p s).state

/-- PUTS (R154): R0 keeps the start address. -/
def execPuts (s : State) : Host.Outcome State Fault Refusal := .next (putsFrom (s.reg .r0) s)

/-- PUTSP (R156): R0 keeps the start address. -/
def execPutsp (s : State) : Host.Outcome State Fault Refusal := .next (putspFrom (s.reg .r0) s)

/-! ### Stopping -/

/-- HALT (R157): nothing is written to the output (decision D16; DEDUCED, log 15). -/
def execHalt (s : State) : Host.Outcome State Fault Refusal := .next (haltCore s)

/-- TRAP with an undefined vector (R158): the vector has no other effect. -/
def execTrapUndefined (_vector : BitVec 8) (s : State) : Host.Outcome State Fault Refusal :=
  .next (raiseFatal .illegalTrapVector s)

/-- RTI (R159). -/
def execRti (s : State) : Host.Outcome State Fault Refusal := .next (raiseFatal .illegalOpcode s)

/-- RES (R160). -/
def execRes (s : State) : Host.Outcome State Fault Refusal := .next (raiseFatal .illegalOpcode s)

/-! ### A held step -/

/-- A held step goes on where it is held (R15, R161, R194; logs 11 and 12). -/
def resumeHeld (h : Held) (s : State) : State :=
  let s0 := { s with held := none }
  match h with
  | .getcRead => getcRead s0
  | .inRead => inRead s0
  | .putsAt p => putsFrom p s0
  | .putspAt p => putspFrom p s0

end Sys2Proof.Machine
end

