-- ==== Sys2Proof/Machine/Step.lean ====
section
/-! DEFINITION. One step of the core (20_memory.md R60). -/

namespace Sys2Proof.Machine

/-- Fetch, decode, execute (R60): a fetch that stops the step decodes nothing (R185). -/
def fetchAndRun (s : State) : Host.Outcome State Fault Refusal :=
  match fetch s with
  | .done ir s1 => exec (decode ir) s1
  | .stopped s1 => .next s1

/-- One step (R60). A stopped core does not change (R32, R194); a held step goes on (R15); else the next instruction
is fetched and run. -/
def step (s : State) : Host.Outcome State Fault Refusal :=
  match s.run with
  | .halted => .next s
  | .faulted _ => .next s
  | .running =>
    match s.held with
    | some h => .next (resumeHeld h s)
    | none => fetchAndRun s

/-- The state with an instruction word stored where the next step fetches: at the PC of a running core with no step
held. The core's RUN and held step are set so that the very next step fetches. Log 25. -/
def State.withFetchWord (s : State) (_nbits w : Nat) : State :=
  { memWrite s.pc (BitVec.ofNat 16 w) s with run := .running, held := none }

end Sys2Proof.Machine
end

