-- ==== Sys2Proof/Machine/Boot.lean ====
section
/-! DEFINITION. The boundary of the core: the loader, the start of a run, and input arriving (70_reset_and_hazards.md).
The host does these, between steps; no step does. -/

namespace Sys2Proof.Machine

/-- The words of a big-endian byte stream (R57, R222): of each pair the first byte is bits 15:8. A trailing odd byte
is refused (U20; log 22). -/
def imageWords : List Byte → Option (List Word)
  | [] => some []
  | [_] => none
  | hi :: lo :: rest => (imageWords rest).map fun ws => (hi ++ lo : BitVec 16) :: ws

/-- Copy words into memory from an address on; the copy does not wrap past 0xFFFF (R222). -/
def storeWords : Nat → List Word → Memory → Memory
  | _, [], m => m
  | a, w :: ws, m => if a < 65536 then storeWords (a + 1) ws (Memory.store m a w) else m

/-- `LoadImage` (R222): the first word is the origin, the others are copied from there on. `none` when the bytes are
no image: an odd number of them, or fewer than two (U20; log 22). An origin word alone, which the spec does not settle
(91_not_in_source.md N27), is accepted and loads nothing, as R222's loop would run zero times (DESIGN CHOICE, log 22). -/
def loadImage (bytes : List Byte) (m : Memory) : Option Memory :=
  match imageWords bytes with
  | some (origin :: ws) => some (storeWords origin.toNat ws m)
  | some [] => none
  | none => none

/-- Several images in sequence, the last write winning (R223); `none` when one of them is refused, and then
execution does not start (R224). -/
def loadImages : List (List Byte) → Memory → Option Memory
  | [], m => some m
  | b :: bs, m =>
    match loadImage b m with
    | some m1 => loadImages bs m1
    | none => none

/-- A run starts: memory holds `INIT_MEM` and the core is released from reset (R210, R220). -/
def bootWith (initMem : Memory) (s : State) : State := applyReset { s with mem := initMem }

/-- Characters arrive at the console (R13). The host may do this between two steps, and so while a step is held
(R15; log 11). -/
def deliverInput (chars : List Byte) (s : State) : State :=
  { s with console := { s.console with input := s.console.input ++ chars } }

end Sys2Proof.Machine
end

