-- ==== Sys2Proof/Safety.lean ====
section
/-! DEFINITION. The terms claims are stated in: the invariant, what an instruction leaves unchanged, the spec's
tables of what each instruction writes, and its string loop written as a relation. -/

namespace Sys2Proof.Machine

/-! ### The invariant -/

/-- The memory is in canonical form, and a step is held only in a running core (R194). -/
abbrev Inv (s : State) : Prop := Memory.wf s.mem = true ∧ (s.held ≠ none → s.run = .running)

/-! ### Frames -/

/-- Every general register but one is unchanged. -/
def SameRegsBut (r : Reg) (s t : State) : Prop := ∀ q : Reg, q ≠ r → t.reg q = s.reg q

/-- Every word of memory but one is unchanged. -/
def SameWordsBut (a : Word) (s t : State) : Prop := ∀ b : Word, b ≠ a → t.word b = s.word b

/-- Every general register is unchanged. -/
def SameRegs (s t : State) : Prop := ∀ q : Reg, t.reg q = s.reg q

/-- Every word of memory is unchanged. -/
def SameWords (s t : State) : Prop := ∀ b : Word, t.word b = s.word b

/-- RUN, the held step, the console and the parameters are unchanged. -/
def SameOutside (s t : State) : Prop :=
  t.run = s.run ∧ t.held = s.held ∧ t.console = s.console ∧ t.params = s.params

/-- One register got a value, COND is its sign, and nothing else changed: what the register-only instructions that
set the flags do. -/
def WroteRegCC (r : Reg) (v : Word) (s t : State) : Prop :=
  t.reg r = v ∧ t.cond = condOf v ∧ SameRegsBut r s t ∧ t.pc = s.pc ∧ SameWords s t ∧ SameOutside s t

/-- One word of memory got a value and nothing else changed: what the stores do. -/
def WroteWord (a v : Word) (s t : State) : Prop :=
  t.word a = v ∧ SameWordsBut a s t ∧ SameRegs s t ∧ t.cond = s.cond ∧ t.pc = s.pc ∧ SameOutside s t

/-- A read stopped the step: the console failed, so RUN is FAULTED(IO_FAILURE), and no register, no flag and not the
PC changed (R130 to R132, R135, R181). -/
def StoppedByIo (s t : State) : Prop :=
  t.run = .faulted .ioFailure ∧ SameRegs s t ∧ t.cond = s.cond ∧ t.pc = s.pc ∧ t.held = s.held ∧ t.params = s.params

/-! ### The spec's tables -/

/-- The seven instructions that perform `setcc` (R28). -/
def setsFlags : Instr → Bool
  | .addReg _ _ _ | .addImm _ _ _ | .andReg _ _ _ | .andImm _ _ _ | .notReg _ _
  | .ld _ _ | .ldi _ _ | .ldr _ _ _ | .lea _ _ => true
  | .br _ _ _ _ | .st _ _ | .sti _ _ | .str _ _ _ | .jmp _ | .ret | .jsr _ | .jsrr _ | .rti | .res
  | .getc | .out | .puts | .inTrap | .putsp | .halt | .trapUndefined _ => false

/-- The general register each instruction writes (R21). -/
def writesReg : Instr → Option Reg
  | .addReg dr _ _ | .addImm dr _ _ | .andReg dr _ _ | .andImm dr _ _ | .notReg dr _
  | .ld dr _ | .ldi dr _ | .ldr dr _ _ | .lea dr _ => some dr
  | .jsr _ | .jsrr _ => some .r7
  | .getc | .inTrap => some .r0
  | .br _ _ _ _ | .st _ _ | .sti _ _ | .str _ _ _ | .jmp _ | .ret | .rti | .res
  | .out | .puts | .putsp | .halt | .trapUndefined _ => none

/-- Whether an instruction stores a register to memory (R66). -/
def isStore : Instr → Bool
  | .st _ _ | .sti _ _ | .str _ _ _ => true
  | .br _ _ _ _ | .addReg _ _ _ | .addImm _ _ _ | .andReg _ _ _ | .andImm _ _ _ | .notReg _ _
  | .ld _ _ | .ldi _ _ | .ldr _ _ _ | .lea _ _ | .jmp _ | .ret | .jsr _ | .jsrr _ | .rti | .res
  | .getc | .out | .puts | .inTrap | .putsp | .halt | .trapUndefined _ => false

/-- Whether an instruction makes no memory access after its fetch (R66). -/
def noAccess : Instr → Bool
  | .br _ _ _ _ | .addReg _ _ _ | .addImm _ _ _ | .andReg _ _ _ | .andImm _ _ _ | .notReg _ _
  | .lea _ _ | .jmp _ | .ret | .jsr _ | .jsrr _ | .rti | .res
  | .getc | .out | .inTrap | .halt | .trapUndefined _ => true
  | .ld _ _ | .ldi _ _ | .ldr _ _ _ | .st _ _ | .sti _ _ | .str _ _ _ | .puts | .putsp => false

/-- The PC after an instruction, from the state its effects begin in, whose PC is `a + 1` (R24). -/
def pcAfter (s : State) : Instr → Word
  | .br n z p off =>
    if (n = true ∧ s.cond = .negative) ∨ (z = true ∧ s.cond = .zero) ∨ (p = true ∧ s.cond = .positive)
    then s.pc + sext off else s.pc
  | .jmp base => s.reg base
  | .ret => s.reg .r7
  | .jsr off => s.pc + sext off
  | .jsrr base => if base = .r7 then s.pc else s.reg base
  | .addReg _ _ _ | .addImm _ _ _ | .andReg _ _ _ | .andImm _ _ _ | .notReg _ _
  | .ld _ _ | .ldi _ _ | .ldr _ _ _ | .lea _ _ | .st _ _ | .sti _ _ | .str _ _ _ | .rti | .res
  | .getc | .out | .puts | .inTrap | .putsp | .halt | .trapUndefined _ => s.pc

/-! ### The console -/

/-- The console answers at least `n` more operations without failing. -/
def Answers (n : Nat) (c : Console) : Prop := ∀ k, c.failAfter = some k → n ≤ k

/-- The console after `n` answered operations, but for what they took or wrote. -/
def Console.after (n : Nat) (c : Console) : Console := { c with failAfter := c.failAfter.map (· - n) }

/-! ### Strings -/

/-- A string in memory: its words, none of them zero and none at KBSR, then the word 0x0000 (R154, R156). -/
def StringAt (s : State) : Word → List Word → Prop
  | p, [] => p ≠ kbsr ∧ s.word p = 0
  | p, w :: ws => p ≠ kbsr ∧ s.word p = w ∧ w ≠ 0 ∧ StringAt s (p + 1) ws

/-- The loop of PUTS and PUTSP as the spec writes it, with no bound on its length (R154, R156, R161):
`StringRun chars p s t` says that the loop entered at address `p` in state `s` ends the step in state `t`. -/
inductive StringRun (chars : Word → List Byte) : Word → State → State → Prop where
  /-- The read stops the step: the address is KBSR and the console fails during the poll. -/
  | readStops {p : Word} {s t : State} (h : memRead p s = .stopped t) : StringRun chars p s t
  /-- The word 0x0000 ends the string: flush. -/
  | terminator {p : Word} {s s1 : State} (h : memRead p s = .done 0 s1) :
      StringRun chars p s (consoleFlush s1).state
  /-- A write stops the step: the console fails. -/
  | writeStops {p w : Word} {s s1 t : State} (h : memRead p s = .done w s1) (hw : w ≠ 0)
      (h2 : consoleWriteAll (chars w) s1 = .stopped t) : StringRun chars p s t
  /-- The characters of a word are written, and the loop goes on at the next address. -/
  | again {p w : Word} {s s1 s2 t : State} (h : memRead p s = .done w s1) (hw : w ≠ 0)
      (h2 : consoleWriteAll (chars w) s1 = .done () s2) (h3 : StringRun chars (p + 1) s2 t) : StringRun chars p s t

/-- The loop on its way: entered at address `p` in state `s`, it comes to address `q` in state `t`, every word read
before being nonzero and written in full. -/
inductive StringReaches (chars : Word → List Byte) : Word → State → Word → State → Prop where
  /-- No word was read yet. -/
  | here (p : Word) (s : State) : StringReaches chars p s p s
  /-- A word was read and written, and the loop goes on at the next address. -/
  | word {p q w : Word} {s s1 s2 t : State} (h : memRead p s = .done w s1) (hw : w ≠ 0)
      (h2 : consoleWriteAll (chars w) s1 = .done () s2) (h3 : StringReaches chars (p + 1) s2 q t) :
      StringReaches chars p s q t

/-- A PUTS or PUTSP with no end in sight (R161 b): held in a running core, every word of memory nonzero (at KBSR in
bits 14:0, which a poll keeps in the default mode), no character unread and no console failure to come. -/
def Unending (s : State) : Prop :=
  s.run = .running ∧ (∃ p, s.held = some (.putsAt p) ∨ s.held = some (.putspAt p)) ∧
  (∀ a : Word, s.word a ≠ 0) ∧ s.word kbsr &&& 0x7FFF ≠ 0 ∧ s.params.pollMode = .bit15Only ∧
  s.console.input = [] ∧ s.console.failAfter = none

end Sys2Proof.Machine
end

