-- ==== Sys2Proof/Certificates/Slice0/Obligations.lean ====
section
/-! DEFINITION. The statements for the provers. Each docstring names the rule or the section of spec/ it formalises;
where a clause is the spec's own decision or this model's choice, it says so. -/

open Sys2Proof Sys2Proof.Machine

/-! ### Encoding -/

/-- R80, R82 to R86, R91 with the published LC-3 numbers and positions (decisions D1, D2; log 4): no operand of a
well-formed instruction is lost by encoding and decoding it. -/
def Obligations.DecodeOfEncodeIsTheInstruction : Prop :=
  ∀ i : Instr, WellFormed i = true → decode (encode i) = i

/-- R82 to R86, R88 (decisions D1, D2, D13; logs 4, 17): every word decodes to a well-formed instruction, and encoding
that gives the word back but for the bits its format ignores. -/
def Obligations.EncodeOfDecodeAgreesOffIgnoredBits : Prop :=
  ∀ w : Word, WellFormed (decode w) = true ∧
    encode (decode w) &&& ~~~(rowOf (decode w)).ignored = w &&& ~~~(rowOf (decode w)).ignored

/-- R91 (derived there from R82 to R86; decisions D1, D2): a word selects the row of the instruction it decodes to,
and no other row, but for the two the table allows: RET's words are JMP words too, and the six named traps' words
match the fallback row. -/
def Obligations.EveryWordSelectsOneRow : Prop :=
  ∀ w : Word, (rowOf (decode w)).selects w = true ∧
    ∀ i : Instr, WellFormed i = true → (rowOf i).selects w = true →
      rowOf i = rowOf (decode w) ∨
      ((∃ base, i = .jmp base) ∧ decode w = .ret) ∨
      ((∃ v, i = .trapUndefined v) ∧
        decode w ∈ [Instr.getc, Instr.out, Instr.puts, Instr.inTrap, Instr.putsp, Instr.halt])

/-- R88 (decision D13; log 17): two words that differ only in ignored bits are the same instruction. -/
def Obligations.IgnoredBitsDoNotMatter : Prop :=
  ∀ w w' : Word,
    w &&& ~~~(rowOf (decode w)).ignored = w' &&& ~~~(rowOf (decode w)).ignored → decode w' = decode w

/-- R89 (numbers by decision D1; causes by D11, D24, log 18): which words are the illegal encodings, and that executing
these, and no other word, raises an illegal-opcode or illegal-vector condition: any other word ends a running core
FAULTED only when the console fails. -/
def Obligations.IllegalEncodingsAreExactlyThese : Prop :=
  (∀ w : Word,
    (decode w = .rti ↔ 0x8000 ≤ w.toNat ∧ w.toNat ≤ 0x8FFF) ∧
    (decode w = .res ↔ 0xD000 ≤ w.toNat ∧ w.toNat ≤ 0xDFFF) ∧
    ((∃ v, decode w = .trapUndefined v) ↔
      0xF000 ≤ w.toNat ∧ ¬(0x20 ≤ w.toNat % 256 ∧ w.toNat % 256 ≤ 0x25))) ∧
  ∀ (w : Word) (s t : State), s.run = .running → exec (decode w) s = .next t →
    (t.run = .faulted .illegalOpcode ↔
      (0x8000 ≤ w.toNat ∧ w.toNat ≤ 0x8FFF) ∨ (0xD000 ≤ w.toNat ∧ w.toNat ≤ 0xDFFF)) ∧
    (t.run = .faulted .illegalTrapVector ↔
      0xF000 ≤ w.toNat ∧ ¬(0x20 ≤ w.toNat % 256 ∧ w.toNat % 256 ≤ 0x25))

/-- Words of the spec's worked examples (40_alu.md to 43_trap_and_illegal.md, 95_test_vectors.md 2.8), one or more
per family, decode to the instructions named there; register numbers name R0 to R7. A sanity statement. -/
def Obligations.WordsOfTheSpecDecode : Prop :=
  (∀ b : BitVec 3, (Reg.ofBits b).bits = b) ∧
  decode 0x1025 = .addImm .r0 .r0 5 ∧ decode 0x1401 = .addReg .r2 .r0 .r1 ∧
  decode 0x5642 = .andReg .r3 .r1 .r2 ∧ decode 0x52BF = .andImm .r1 .r2 (-1) ∧ decode 0x923F = .notReg .r1 .r0 ∧
  decode 0x03FD = .br false false true (-3) ∧ decode 0xC0C0 = .jmp .r3 ∧ decode 0xC1C0 = .ret ∧
  decode 0x4802 = .jsr 2 ∧ decode 0x4080 = .jsrr .r2 ∧ decode 0x2202 = .ld .r1 2 ∧ decode 0xA401 = .ldi .r2 1 ∧
  decode 0x667E = .ldr .r3 .r1 (-2) ∧ decode 0xE002 = .lea .r0 2 ∧ decode 0x3203 = .st .r1 3 ∧
  decode 0xB204 = .sti .r1 4 ∧ decode 0x75BF = .str .r2 .r6 (-1) ∧ decode 0xF020 = .getc ∧ decode 0xF021 = .out ∧
  decode 0xF022 = .puts ∧ decode 0xF023 = .inTrap ∧ decode 0xF024 = .putsp ∧ decode 0xFF25 = .halt ∧
  decode 0xF026 = .trapUndefined 0x26 ∧ decode 0x8FFF = .rti ∧ decode 0xDABC = .res

/-! ### Operands and flags -/

/-- What R9 says of one width: the value, and every upper bit a copy of the field's high bit. -/
def SignExtends (n : Nat) : Prop :=
  ∀ v : BitVec n,
    (v.getLsbD (n - 1) = false → (sext v).toNat = v.toNat) ∧
    (v.getLsbD (n - 1) = true → (sext v).toNat = v.toNat + (65536 - 2 ^ n)) ∧
    (v.getLsbD (n - 1) = true → (sext v).toNat = (v.toNat ||| (0xFFFF <<< n)) &&& 0xFFFF) ∧
    (∀ k, k < n → (sext v).getLsbD k = v.getLsbD k) ∧
    (∀ k, n ≤ k → k < 16 → (sext v).getLsbD k = v.getLsbD (n - 1))

/-- R9: `sext_N` for N in {5, 6, 9, 11}. -/
def Obligations.SignExtensionOfAllFourWidths : Prop :=
  SignExtends 5 ∧ SignExtends 6 ∧ SignExtends 9 ∧ SignExtends 11

/-- R12: `setcc(v)` sets COND from the value, by its sign, and changes nothing else; where a destination register was
written, the value is the register's new value, not its number. -/
def Obligations.SetccFollowsTheSignOfTheValue : Prop :=
  (∀ (v : Word) (s : State),
    (v = 0 → (setcc v s).cond = .zero) ∧
    (v.getLsbD 15 = true → (setcc v s).cond = .negative) ∧
    (v ≠ 0 → v.getLsbD 15 = false → (setcc v s).cond = .positive) ∧
    setcc v s = { s with cond := (setcc v s).cond }) ∧
  ∀ (dr : Reg) (v : Word) (s : State),
    writeRegCC dr v s = setcc ((writeReg dr v s).reg dr) (writeReg dr v s)

/-- R28 and R27 (for TRAP by decision D14, log 14): of all instructions only the seven write COND; when one of the
seven completes, COND is the sign of the new value of its destination register; and COND's code is always one of the
three one-hot codes of R26. A seven's load that the console stops leaves COND alone, and so does a held step. -/
def Obligations.OnlySevenInstructionsWriteTheFlags : Prop :=
  (∀ c : Cond, c.code = 0b100 ∨ c.code = 0b010 ∨ c.code = 0b001) ∧
  (∀ (i : Instr) (s t : State), exec i s = .next t →
    (setsFlags i = false → t.cond = s.cond) ∧
    (setsFlags i = true → s.run = .running → t.run = .running →
      ∃ dr, writesReg i = some dr ∧ t.cond = condOf (t.reg dr)) ∧
    (setsFlags i = true → s.run = .running → t.run ≠ .running → t.cond = s.cond)) ∧
  ∀ (h : Held) (s : State), (resumeHeld h s).cond = s.cond

/-! ### Arithmetic and logic -/

/-- R110: ADD in both forms, with its operand fields. The sum is modulo 65,536, COND is its sign, nothing else
changes, nothing is raised; and an immediate acts as a second register holding its sign extension. -/
def Obligations.AddAddsModulo65536AndSetsFlags : Prop :=
  (∀ ir : Word, ir.extractLsb' 12 4 = 0b0001#4 →
    (ir.getLsbD 5 = true → decode ir =
      .addImm (Reg.ofBits (ir.extractLsb' 9 3)) (Reg.ofBits (ir.extractLsb' 6 3)) (ir.extractLsb' 0 5)) ∧
    (ir.getLsbD 5 = false → decode ir =
      .addReg (Reg.ofBits (ir.extractLsb' 9 3)) (Reg.ofBits (ir.extractLsb' 6 3)) (Reg.ofBits (ir.extractLsb' 0 3)))) ∧
  (∀ (dr sr1 sr2 : Reg) (s : State), ∃ (t : State) (v : Word), exec (.addReg dr sr1 sr2) s = .next t ∧
    v.toNat = ((s.reg sr1).toNat + (s.reg sr2).toNat) % 65536 ∧ WroteRegCC dr v s t) ∧
  (∀ (dr sr1 : Reg) (imm : BitVec 5) (s : State), ∃ (t : State) (v : Word), exec (.addImm dr sr1 imm) s = .next t ∧
    v.toNat = ((s.reg sr1).toNat + (sext imm).toNat) % 65536 ∧ WroteRegCC dr v s t) ∧
  (∀ (dr sr1 sr2 : Reg) (imm : BitVec 5) (s : State), s.reg sr2 = sext imm →
    exec (.addImm dr sr1 imm) s = exec (.addReg dr sr1 sr2) s)

/-- R111: AND in both forms, bit by bit over 16 bits, with its operand fields, flags and frame. -/
def Obligations.AndIsBitwiseAndSetsFlags : Prop :=
  (∀ ir : Word, ir.extractLsb' 12 4 = 0b0101#4 →
    (ir.getLsbD 5 = true → decode ir =
      .andImm (Reg.ofBits (ir.extractLsb' 9 3)) (Reg.ofBits (ir.extractLsb' 6 3)) (ir.extractLsb' 0 5)) ∧
    (ir.getLsbD 5 = false → decode ir =
      .andReg (Reg.ofBits (ir.extractLsb' 9 3)) (Reg.ofBits (ir.extractLsb' 6 3)) (Reg.ofBits (ir.extractLsb' 0 3)))) ∧
  (∀ (dr sr1 sr2 : Reg) (s : State), ∃ (t : State) (v : Word), exec (.andReg dr sr1 sr2) s = .next t ∧
    (∀ k, k < 16 → v.getLsbD k = ((s.reg sr1).getLsbD k && (s.reg sr2).getLsbD k)) ∧ WroteRegCC dr v s t) ∧
  (∀ (dr sr1 : Reg) (imm : BitVec 5) (s : State), ∃ (t : State) (v : Word), exec (.andImm dr sr1 imm) s = .next t ∧
    (∀ k, k < 16 → v.getLsbD k = ((s.reg sr1).getLsbD k && (sext imm).getLsbD k)) ∧ WroteRegCC dr v s t) ∧
  (∀ (dr sr1 sr2 : Reg) (imm : BitVec 5) (s : State), s.reg sr2 = sext imm →
    exec (.andImm dr sr1 imm) s = exec (.andReg dr sr1 sr2) s)

/-- R112: NOT gives 0xFFFF minus its source, with its operand fields (bits 5:0 ignored), flags and frame. -/
def Obligations.NotComplementsAndSetsFlags : Prop :=
  (∀ ir : Word, ir.extractLsb' 12 4 = 0b1001#4 →
    decode ir = .notReg (Reg.ofBits (ir.extractLsb' 9 3)) (Reg.ofBits (ir.extractLsb' 6 3))) ∧
  ∀ (dr sr : Reg) (s : State), ∃ (t : State) (v : Word), exec (.notReg dr sr) s = .next t ∧
    v.toNat = 0xFFFF - (s.reg sr).toNat ∧ WroteRegCC dr v s t

/-! ### Control transfer -/

/-- R120: BR is taken exactly when n, z or p is set and COND is N, Z or P; it changes nothing but the PC. -/
def Obligations.BranchIsTakenWhenAFlagMatches : Prop :=
  (∀ ir : Word, ir.extractLsb' 12 4 = 0b0000#4 →
    decode ir = .br (ir.getLsbD 11) (ir.getLsbD 10) (ir.getLsbD 9) (ir.extractLsb' 0 9)) ∧
  (∀ (n z p : Bool) (off : BitVec 9) (s : State),
    (n = true ∧ s.cond = .negative) ∨ (z = true ∧ s.cond = .zero) ∨ (p = true ∧ s.cond = .positive) →
    exec (.br n z p off) s = .next { s with pc := s.pc + sext off }) ∧
  (∀ (n z p : Bool) (off : BitVec 9) (s : State),
    ¬((n = true ∧ s.cond = .negative) ∨ (z = true ∧ s.cond = .zero) ∨ (p = true ∧ s.cond = .positive)) →
    exec (.br n z p off) s = .next s)

/-- R121: JMP loads the PC from the base register and changes nothing else; RET is the case BaseR = 7. -/
def Obligations.JumpLoadsThePcFromTheBaseRegister : Prop :=
  (∀ ir : Word, ir.extractLsb' 12 4 = 0b1100#4 →
    (Reg.ofBits (ir.extractLsb' 6 3) = .r7 → decode ir = .ret) ∧
    (Reg.ofBits (ir.extractLsb' 6 3) ≠ .r7 → decode ir = .jmp (Reg.ofBits (ir.extractLsb' 6 3)))) ∧
  (∀ (base : Reg) (s : State), exec (.jmp base) s = .next { s with pc := s.reg base }) ∧
  (∀ s : State, exec .ret s = .next { s with pc := s.reg .r7 })

/-- R122: JSR writes the address after it to R7 and adds its offset to the PC; the flags do not change. -/
def Obligations.JsrLinksAndBranches : Prop :=
  (∀ ir : Word, ir.extractLsb' 12 4 = 0b0100#4 → ir.getLsbD 11 = true → decode ir = .jsr (ir.extractLsb' 0 11)) ∧
  ∀ (off : BitVec 11) (s : State), ∃ t, exec (.jsr off) s = .next t ∧
    t.reg .r7 = s.pc ∧ t.pc = s.pc + sext off ∧ SameRegsBut .r7 s t ∧ t.cond = s.cond ∧
    SameWords s t ∧ SameOutside s t

/-- R123: JSRR writes R7 first and then reads the base register, so that through R7 it falls through (decision D18,
log 13); the flags do not change. -/
def Obligations.JsrrLinksBeforeItReadsTheBase : Prop :=
  (∀ ir : Word, ir.extractLsb' 12 4 = 0b0100#4 → ir.getLsbD 11 = false →
    decode ir = .jsrr (Reg.ofBits (ir.extractLsb' 6 3))) ∧
  ∀ (base : Reg) (s : State), ∃ t, exec (.jsrr base) s = .next t ∧
    t.reg .r7 = s.pc ∧ (base ≠ .r7 → t.pc = s.reg base) ∧ (base = .r7 → t.pc = s.pc) ∧ SameRegsBut .r7 s t ∧
    t.cond = s.cond ∧ SameWords s t ∧ SameOutside s t

/-! ### Loads, stores, addresses -/

/-- What a load does from the address it reads on: the word MemRead gives goes to the register and sets COND, and
nothing else changes but what the read itself changed; when the read stops the step (it reads KBSR and the console
fails), no register and no flag changes and RUN is FAULTED(IO_FAILURE). An address other than KBSR is read as it
stands in memory. -/
def LoadsFrom (i : Instr) (dr : Reg) (ea : Word) (s : State) : Prop :=
  (ea ≠ kbsr → ∃ t, exec i s = .next t ∧ WroteRegCC dr (s.word ea) s t) ∧
  (∀ v s1, memRead ea s = .done v s1 → ∃ t, exec i s = .next t ∧ WroteRegCC dr v s1 t ∧
    SameRegsBut dr s t ∧ t.pc = s.pc ∧ t.run = s.run ∧ t.held = s.held ∧ t.params = s.params) ∧
  (∀ s1, memRead ea s = .stopped s1 → exec i s = .next s1 ∧ ea = kbsr ∧ StoppedByIo s s1)

/-- R130: LD loads the word at PC + sext_9(PCoffset9). -/
def Obligations.LdLoadsFromThePcRelativeAddress : Prop :=
  (∀ ir : Word, ir.extractLsb' 12 4 = 0b0010#4 →
    decode ir = .ld (Reg.ofBits (ir.extractLsb' 9 3)) (ir.extractLsb' 0 9)) ∧
  ∀ (dr : Reg) (off : BitVec 9) (s : State), LoadsFrom (.ld dr off) dr (s.pc + sext off) s

/-- R132: LDR loads the word at R[BaseR] + sext_6(offset6); the base register is not modified (unless it is DR). -/
def Obligations.LdrLoadsFromTheBaseRegister : Prop :=
  (∀ ir : Word, ir.extractLsb' 12 4 = 0b0110#4 →
    decode ir = .ldr (Reg.ofBits (ir.extractLsb' 9 3)) (Reg.ofBits (ir.extractLsb' 6 3)) (ir.extractLsb' 0 6)) ∧
  ∀ (dr base : Reg) (off : BitVec 6) (s : State), LoadsFrom (.ldr dr base off) dr (s.reg base + sext off) s

/-- R131: LDI reads a pointer at PC + sext_9(PCoffset9) and loads the word the pointer names, both reads through
MemRead in that order; a read that stops the step leaves the registers and COND, and the effects of a first poll
that succeeded stay. The rule's property: it gives what LDR with offset 0 from a register that holds the pointer
gives. -/
def Obligations.LdiLoadsThroughThePointer : Prop :=
  (∀ ir : Word, ir.extractLsb' 12 4 = 0b1010#4 →
    decode ir = .ldi (Reg.ofBits (ir.extractLsb' 9 3)) (ir.extractLsb' 0 9)) ∧
  ∀ (dr : Reg) (off : BitVec 9) (s : State),
    (s.pc + sext off ≠ kbsr → s.word (s.pc + sext off) ≠ kbsr →
      ∃ t, exec (.ldi dr off) s = .next t ∧ WroteRegCC dr (s.word (s.word (s.pc + sext off))) s t) ∧
    (∀ p s1 v s2, memRead (s.pc + sext off) s = .done p s1 → memRead p s1 = .done v s2 →
      ∃ t, exec (.ldi dr off) s = .next t ∧ WroteRegCC dr v s2 t ∧
        SameRegsBut dr s t ∧ t.pc = s.pc ∧ t.run = s.run ∧ t.held = s.held ∧ t.params = s.params) ∧
    (∀ s1, memRead (s.pc + sext off) s = .stopped s1 →
      exec (.ldi dr off) s = .next s1 ∧ s.pc + sext off = kbsr ∧ StoppedByIo s s1) ∧
    (∀ p s1 s2, memRead (s.pc + sext off) s = .done p s1 → memRead p s1 = .stopped s2 →
      exec (.ldi dr off) s = .next s2 ∧ p = kbsr ∧ StoppedByIo s s2 ∧ StoppedByIo s1 s2) ∧
    (∀ base : Reg, s.pc + sext off ≠ kbsr → s.reg base = s.word (s.pc + sext off) →
      exec (.ldi dr off) s = exec (.ldr dr base 0) s)

/-- R133: LEA writes the address itself and sets COND from it; it makes no memory access, whatever the address. -/
def Obligations.LeaWritesTheAddressWithoutAccess : Prop :=
  (∀ ir : Word, ir.extractLsb' 12 4 = 0b1110#4 →
    decode ir = .lea (Reg.ofBits (ir.extractLsb' 9 3)) (ir.extractLsb' 0 9)) ∧
  ∀ (dr : Reg) (off : BitVec 9) (s : State), ∃ t, exec (.lea dr off) s = .next t ∧
    WroteRegCC dr (s.pc + sext off) s t

/-- R134: ST stores R[SR] at PC + sext_9(PCoffset9), at every address, the device words among them, and nothing else
changes. -/
def Obligations.StStoresAtThePcRelativeAddress : Prop :=
  (∀ ir : Word, ir.extractLsb' 12 4 = 0b0011#4 →
    decode ir = .st (Reg.ofBits (ir.extractLsb' 9 3)) (ir.extractLsb' 0 9)) ∧
  ∀ (sr : Reg) (off : BitVec 9) (s : State), ∃ t, exec (.st sr off) s = .next t ∧
    WroteWord (s.pc + sext off) (s.reg sr) s t

/-- R136: STR stores R[SR] at R[BaseR] + sext_6(offset6), and nothing else changes. -/
def Obligations.StrStoresAtTheBaseRegister : Prop :=
  (∀ ir : Word, ir.extractLsb' 12 4 = 0b0111#4 →
    decode ir = .str (Reg.ofBits (ir.extractLsb' 9 3)) (Reg.ofBits (ir.extractLsb' 6 3)) (ir.extractLsb' 0 6)) ∧
  ∀ (sr base : Reg) (off : BitVec 6) (s : State), ∃ t, exec (.str sr base off) s = .next t ∧
    WroteWord (s.reg base + sext off) (s.reg sr) s t

/-- R135: STI reads a pointer at PC + sext_9(PCoffset9) through MemRead and stores R[SR] at it; a pointer read that
stops the step stores nothing to the pointer. -/
def Obligations.StiStoresThroughThePointer : Prop :=
  (∀ ir : Word, ir.extractLsb' 12 4 = 0b1011#4 →
    decode ir = .sti (Reg.ofBits (ir.extractLsb' 9 3)) (ir.extractLsb' 0 9)) ∧
  ∀ (sr : Reg) (off : BitVec 9) (s : State),
    (s.pc + sext off ≠ kbsr → ∃ t, exec (.sti sr off) s = .next t ∧
      WroteWord (s.word (s.pc + sext off)) (s.reg sr) s t) ∧
    (∀ p s1, memRead (s.pc + sext off) s = .done p s1 → ∃ t, exec (.sti sr off) s = .next t ∧
      WroteWord p (s.reg sr) s1 t ∧ SameRegs s t ∧ t.cond = s.cond ∧ t.pc = s.pc ∧ t.run = s.run) ∧
    (∀ s1, memRead (s.pc + sext off) s = .stopped s1 →
      exec (.sti sr off) s = .next s1 ∧ s.pc + sext off = kbsr ∧ StoppedByIo s s1)

/-! ### Memory and the keyboard -/

/-- R55, R56, R62, R63: MemWrite stores at every address, the next read of the stored word gives the value, every other
word stays, and nothing else changes. -/
def Obligations.StoredWordIsReadBack : Prop :=
  ∀ (a v : Word) (s : State) (b : Word),
    (memWrite a v s).word b = (if b = a then v else s.word b) ∧
    (a ≠ kbsr → memRead a (memWrite a v s) = .done v (memWrite a v s)) ∧
    SameRegs s (memWrite a v s) ∧ (memWrite a v s).cond = s.cond ∧ (memWrite a v s).pc = s.pc ∧
    SameOutside s (memWrite a v s)

/-- The canonical form of the memory (log 1): two memories in it that read the same at every address of the address
space are the same data. A statement about the model's own form of MEM (R35). -/
def Obligations.EqualMemoriesAreEqualData : Prop :=
  ∀ m m' : Memory, Memory.wf m = true → Memory.wf m' = true →
    (∀ a : Word, Memory.lookup m a.toNat = Memory.lookup m' a.toNat) → m = m'

/-- R51 (0xFE00 is the status word by decision D4, log 5): a read of any other address gives the stored word and
changes nothing, 0xFE02 among them; a read of 0xFE00 first polls, and gives the word stored after the poll. -/
def Obligations.MemReadPollsOnlyAtTheStatusWord : Prop :=
  (∀ (a : Word) (s : State), a ≠ 0xFE00 → memRead a s = .done (s.word a) s) ∧
  (∀ s t : State, keyboardPoll s = .done () t → memRead 0xFE00 s = .done (t.word 0xFE00) t) ∧
  (∀ s t : State, keyboardPoll s = .stopped t → memRead 0xFE00 s = .stopped t)

/-- What a read of KBSR leaves unchanged in any case: the registers, COND, the PC, a held step, the parameters, the
output, and every word but KBSR and KBDR. -/
def PollFrame (s t : State) : Prop :=
  SameRegs s t ∧ t.cond = s.cond ∧ t.pc = s.pc ∧ t.held = s.held ∧ t.params = s.params ∧
  t.console.output = s.console.output ∧ ∀ a : Word, a ≠ kbsr → a ≠ kbdr → t.word a = s.word a

/-- R52, R53 (KBSR_POLL_MODE by decision D5, character width by D7, addresses by D4): a read of KBSR whose poll finds
a key takes exactly one character, sets bit 15 (keeping bits 14:0 or not, by the mode), puts the character in KBDR,
and returns the updated word; one that finds none clears bit 15, keeps KBDR and takes nothing. Whether a key is found
is an input: the statement holds for every answer. -/
def Obligations.ReadingKbsrPollsTheKeyboard : Prop :=
  (∀ (s : State) (ch : Byte) (rest : List Byte), s.console.input = ch :: rest → s.console.findsKey = true →
    Answers 2 s.console → ∃ v t, memRead kbsr s = .done v t ∧ PollFrame s t ∧ t.run = s.run ∧
      t.console.input = rest ∧ t.word kbsr = v ∧ v.getLsbD 15 = true ∧
      (s.params.pollMode = .bit15Only → v = s.word kbsr ||| 0x8000) ∧ (s.params.pollMode = .wholeWord → v = 0x8000) ∧
      (t.word kbdr).toNat = ch.toNat) ∧
  (∀ s : State, s.console.findsKey = false → Answers 1 s.console →
    ∃ v t, memRead kbsr s = .done v t ∧ PollFrame s t ∧ t.run = s.run ∧ t.console.input = s.console.input ∧
      t.word kbsr = v ∧ v.getLsbD 15 = false ∧
      (s.params.pollMode = .bit15Only → v = s.word kbsr &&& 0x7FFF) ∧ (s.params.pollMode = .wholeWord → v = 0) ∧
      t.word kbdr = s.word kbdr)

/-- R52, R181, R182 (no rollback by decision D12): a poll whose first question fails changes nothing but RUN; one
whose read fails leaves bit 15 of KBSR set and KBDR as it was. -/
def Obligations.FailingPollKeepsWhatItDidBefore : Prop :=
  (∀ s : State, s.console.failAfter = some 0 →
    memRead kbsr s = .stopped { s with run := .faulted .ioFailure }) ∧
  (∀ s : State, s.console.failAfter = some 1 → s.console.findsKey = true →
    ∃ t, memRead kbsr s = .stopped t ∧ PollFrame s t ∧ t.run = .faulted .ioFailure ∧
      t.word kbsr = statusReady s.params.pollMode (s.word kbsr) ∧ t.word kbdr = s.word kbdr ∧
      t.console.input = s.console.input)

/-- R54 d (derived there from R53): of two polls in a row that both find a key, the second overwrites KBDR, and the
first character is nowhere any more. -/
def Obligations.SecondPollOverwritesTheFirstKey : Prop :=
  ∀ (s : State) (c1 c2 : Byte) (rest : List Byte) (b : List Bool), s.console.input = c1 :: c2 :: rest →
    s.console.keyReady = true :: true :: b → Answers 4 s.console →
    ∃ v1 s1 v2 s2, memRead kbsr s = .done v1 s1 ∧ memRead kbsr s1 = .done v2 s2 ∧
      s1.word kbdr = zext8 c1 ∧ s2.word kbdr = zext8 c2 ∧ s2.console.input = rest ∧
      (∀ a : Word, a ≠ kbsr → a ≠ kbdr → s2.word a = s.word a)

/-! ### Trap services -/

/-- R150 (fields by decision D2): the dispatch of TRAP by the low 8 bits of the word, bits 11:8 ignored. -/
def Obligations.TrapDispatchesOnTheLowEightBits : Prop :=
  ∀ ir : Word, ir.extractLsb' 12 4 = 0b1111#4 →
    (ir.extractLsb' 0 8 = 0x20#8 → decode ir = .getc) ∧ (ir.extractLsb' 0 8 = 0x21#8 → decode ir = .out) ∧
    (ir.extractLsb' 0 8 = 0x22#8 → decode ir = .puts) ∧ (ir.extractLsb' 0 8 = 0x23#8 → decode ir = .inTrap) ∧
    (ir.extractLsb' 0 8 = 0x24#8 → decode ir = .putsp) ∧ (ir.extractLsb' 0 8 = 0x25#8 → decode ir = .halt) ∧
    ((ir.extractLsb' 0 8).toNat < 0x20 ∨ 0x25 < (ir.extractLsb' 0 8).toNat →
      decode ir = .trapUndefined (ir.extractLsb' 0 8))

/-- R152 (flags by decision D14, width by D7): GETC takes the oldest unread character and puts it in R0, zero-extended;
it writes nothing to the output, and COND, the PC, the other registers and memory do not change. When the console
fails, only RUN changes. -/
def Obligations.GetcReadsOneCharacterIntoR0 : Prop :=
  (∀ (s : State) (ch : Byte) (rest : List Byte), s.console.input = ch :: rest → Answers 1 s.console →
    ∃ t, exec .getc s = .next t ∧ (t.reg .r0).toNat = ch.toNat ∧ SameRegsBut .r0 s t ∧ t.cond = s.cond ∧ t.pc = s.pc ∧
      SameWords s t ∧ t.run = s.run ∧ t.held = s.held ∧ t.params = s.params ∧
      t.console = { s.console.after 1 with input := rest }) ∧
  (∀ s : State, s.console.failAfter = some 0 → exec .getc s = .next { s with run := .faulted .ioFailure })

/-- R153: OUT appends the low byte of R0 to the output and flushes; nothing else changes. When the write fails
nothing is written; when the flush fails the character stays written. -/
def Obligations.OutWritesTheLowByteOfR0 : Prop :=
  (∀ s : State, Answers 2 s.console → ∃ ch : Byte, ch.toNat = (s.reg .r0).toNat % 256 ∧
    exec .out s = .next { s with console := { s.console.after 2 with output := s.console.output ++ [ch] } }) ∧
  (∀ s : State, s.console.failAfter = some 0 → exec .out s = .next { s with run := .faulted .ioFailure }) ∧
  (∀ s : State, s.console.failAfter = some 1 → ∃ t, exec .out s = .next t ∧ t.run = .faulted .ioFailure ∧
    t.console.output = s.console.output ++ [lowByte (s.reg .r0)] ∧ t.console.input = s.console.input ∧
    SameRegs s t ∧ t.cond = s.cond ∧ t.pc = s.pc ∧ SameWords s t ∧ t.held = s.held ∧ t.params = s.params)

/-- R154 (with the string in memory and off KBSR; a string that meets KBSR, a failing console and a string with no end
are the statements on `StringRun` and `Unending`): PUTS writes the low byte of every word up to the first 0x0000 and
changes nothing but the output. A string has fewer than 65,536 words, since addresses repeat after that. -/
def Obligations.PutsWritesTheLowBytesOfTheString : Prop :=
  ∀ (s : State) (ws : List Word), StringAt s (s.reg .r0) ws → ws.length < 65536 → s.console.failAfter = none →
    exec .puts s = .next { s with console := { s.console with output := s.console.output ++ ws.map lowByte } }

/-- R156 (with the string in memory and off KBSR): PUTSP writes of every word the low byte, then the high byte when it
is not zero, and changes nothing but the output. -/
def Obligations.PutspWritesLowThenNonzeroHighBytes : Prop :=
  ∀ (s : State) (ws : List Word), StringAt s (s.reg .r0) ws → ws.length < 65536 → s.console.failAfter = none →
    exec .putsp s = .next { s with
      console := { s.console with
        output := s.console.output ++
          ws.flatMap fun w => if highByte w = 0 then [lowByte w] else [lowByte w, highByte w] } }

/-- What an IN that ends early leaves: some of its output written, R0 and everything else but RUN, a held step and the
console as they were. -/
def InEndsEarly (written : List Byte) (unread : List Byte) (s t : State) : Prop :=
  t.console.output = s.console.output ++ written ∧ t.console.input = unread ∧
  SameRegs s t ∧ t.cond = s.cond ∧ t.pc = s.pc ∧ SameWords s t ∧ t.params = s.params

/-- R155 (flags by decision D14, prompt by D15, flushes by D20): IN writes the prompt, takes one character, echoes it
and puts it in R0, zero-extended; nothing else changes. With no character unread it has written the prompt and waits
(decision D27, log 11). When the console fails, what was written before stays written, and R0 is as it was: inside the
prompt or at its flush (the characters written so far), at the read (the prompt), at the echo (the prompt, the
character taken), at the last flush (the prompt and the echo). -/
def Obligations.InPromptsReadsEchoesIntoR0 : Prop :=
  (∀ (s : State) (ch : Byte) (rest : List Byte), s.console.input = ch :: rest →
    Answers (s.params.inPrompt.length + 4) s.console →
    ∃ t, exec .inTrap s = .next t ∧ (t.reg .r0).toNat = ch.toNat ∧ SameRegsBut .r0 s t ∧ t.cond = s.cond ∧
      t.pc = s.pc ∧ SameWords s t ∧ t.run = s.run ∧ t.held = s.held ∧ t.params = s.params ∧
      t.console =
        { s.console.after (s.params.inPrompt.length + 4) with
          input := rest, output := s.console.output ++ s.params.inPrompt ++ [ch] }) ∧
  (∀ s : State, s.console.input = [] → Answers (s.params.inPrompt.length + 2) s.console →
    ∃ t, exec .inTrap s = .next t ∧ InEndsEarly s.params.inPrompt [] s t ∧ t.run = s.run ∧ t.held = some .inRead) ∧
  (∀ (s : State) (k : Nat), k ≤ s.params.inPrompt.length → s.console.failAfter = some k →
    ∃ t, exec .inTrap s = .next t ∧ InEndsEarly (s.params.inPrompt.take k) s.console.input s t ∧
      t.run = .faulted .ioFailure ∧ t.held = s.held) ∧
  (∀ s : State, s.console.failAfter = some (s.params.inPrompt.length + 1) →
    ∃ t, exec .inTrap s = .next t ∧ InEndsEarly s.params.inPrompt s.console.input s t ∧
      t.run = .faulted .ioFailure ∧ t.held = s.held) ∧
  (∀ (s : State) (ch : Byte) (rest : List Byte), s.console.input = ch :: rest →
    s.console.failAfter = some (s.params.inPrompt.length + 2) →
    ∃ t, exec .inTrap s = .next t ∧ InEndsEarly s.params.inPrompt rest s t ∧
      t.run = .faulted .ioFailure ∧ t.held = s.held) ∧
  (∀ (s : State) (ch : Byte) (rest : List Byte), s.console.input = ch :: rest →
    s.console.failAfter = some (s.params.inPrompt.length + 3) →
    ∃ t, exec .inTrap s = .next t ∧ InEndsEarly (s.params.inPrompt ++ [ch]) rest s t ∧
      t.run = .faulted .ioFailure ∧ t.held = s.held)

/-- R157 (no output by decision D16, log 15): HALT stops the core and changes nothing else. -/
def Obligations.HaltOnlyStopsTheCore : Prop :=
  (∀ ir : Word, ir &&& 0xF0FF = 0xF025 → decode ir = .halt) ∧
  ∀ s : State, exec .halt s = .next { s with run := .halted }

/-- R158 (a cause of its own by decision D24, log 18): TRAP with an undefined vector is fatal and changes nothing
else. -/
def Obligations.UndefinedTrapVectorIsFatal : Prop :=
  (∀ ir : Word, 0xF000 ≤ ir.toNat → ¬(0x20 ≤ ir.toNat % 256 ∧ ir.toNat % 256 ≤ 0x25) →
    decode ir = .trapUndefined (ir.extractLsb' 0 8)) ∧
  ∀ (v : BitVec 8) (s : State), exec (.trapUndefined v) s = .next { s with run := .faulted .illegalTrapVector }

/-- R159: RTI, any of the words 0x8000 to 0x8FFF, raises Fatal(ILLEGAL_OPCODE), and nothing but RUN changes. -/
def Obligations.RtiIsFatal : Prop :=
  (∀ ir : Word, 0x8000 ≤ ir.toNat → ir.toNat ≤ 0x8FFF → decode ir = .rti) ∧
  ∀ s : State, exec .rti s = .next { s with run := .faulted .illegalOpcode }

/-- R160: RES, any of the words 0xD000 to 0xDFFF, raises Fatal(ILLEGAL_OPCODE), and nothing but RUN changes. -/
def Obligations.ReservedOpcodeIsFatal : Prop :=
  (∀ ir : Word, 0xD000 ≤ ir.toNat → ir.toNat ≤ 0xDFFF → decode ir = .res) ∧
  ∀ s : State, exec .res s = .next { s with run := .faulted .illegalOpcode }

/-- `t` is where a step of the model leaves a string service whose loop stands at address `p` in state `s`: if the loop
ends, the step is not held and is the one state the loop ends in; the step is held only if the loop never ends, and
then it stands on the loop's way. -/
def FollowsStringLoop (chars : Word → List Byte) (resumeAt : Word → Held) (p : Word) (s t : State) : Prop :=
  (t.held = none → ∀ u, StringRun chars p s u ↔ u = t) ∧
  (t.held ≠ none → (∀ u, ¬StringRun chars p s u) ∧
    ∃ q, t.held = some (resumeAt q) ∧ StringReaches chars p s q { t with held := none })

/-- R15, R154, R156, R161: PUTS and PUTSP are the spec's unbounded loop, in one step: a step of either, the first one or
a resumed one, that ends the loop is not held, and one that is held is in a loop that never ends (how the model shows
such a loop, held and going on in every further step, is log 12). -/
def Obligations.StringServicesAreTheLoopOfTheSpec : Prop :=
  (∀ s t : State, s.held = none → exec .puts s = .next t → FollowsStringLoop putsChars .putsAt (s.reg .r0) s t) ∧
  (∀ s t : State, s.held = none → exec .putsp s = .next t → FollowsStringLoop putspChars .putspAt (s.reg .r0) s t) ∧
  (∀ (s t : State) (p : Word), s.run = .running → s.held = some (.putsAt p) → step s = .next t →
    FollowsStringLoop putsChars .putsAt p { s with held := none } t) ∧
  (∀ (s t : State) (p : Word), s.run = .running → s.held = some (.putspAt p) → step s = .next t →
    FollowsStringLoop putspChars .putspAt p { s with held := none } t)

/-- R161 b (decision D19, log 12): a string service with no zero word in memory never completes: whatever number of
steps is taken, it is still in progress in a running core. -/
def Obligations.UnendingStringNeverCompletes : Prop :=
  ∀ s : State, Unending s → ∃ t, step s = .next t ∧ Unending t ∧ SameRegs s t ∧ t.cond = s.cond ∧ t.pc = s.pc

/-- R15, R194 (decision D27, log 11): GETC with no character unread is held, and so is IN after its prompt; a held
step changes nothing until a character arrives or the console fails; when a character arrives the step completes, and
nothing but R0, the hold and the console changes. A step is held at a read only with no character unread. -/
def Obligations.HeldInputWaitsForACharacter : Prop :=
  (∀ s : State, s.console.input = [] → Answers 1 s.console → exec .getc s = .next { s with held := some .getcRead }) ∧
  (∀ s : State, s.run = .running → (s.held = some .getcRead ∨ s.held = some .inRead) → s.console.input = [] →
    Answers 1 s.console → step s = .next s) ∧
  (∀ s : State, s.run = .running → (s.held = some .getcRead ∨ s.held = some .inRead) →
    s.console.failAfter = some 0 → step s = .next { s with held := none, run := .faulted .ioFailure }) ∧
  (∀ (s : State) (ch : Byte), s.run = .running → s.held = some .getcRead → s.console.input = [] →
    Answers 1 s.console → ∃ t, step (deliverInput [ch] s) = .next t ∧ t.held = none ∧ t.run = .running ∧
      t.reg .r0 = zext8 ch ∧ SameRegsBut .r0 s t ∧ t.cond = s.cond ∧ t.pc = s.pc ∧ t.mem = s.mem ∧
      t.params = s.params ∧ t.console.input = [] ∧ t.console.output = s.console.output) ∧
  (∀ (s : State) (ch : Byte), s.run = .running → s.held = some .inRead → s.console.input = [] →
    Answers 3 s.console → ∃ t, step (deliverInput [ch] s) = .next t ∧ t.held = none ∧ t.run = .running ∧
      t.reg .r0 = zext8 ch ∧ SameRegsBut .r0 s t ∧ t.cond = s.cond ∧ t.pc = s.pc ∧ t.mem = s.mem ∧
      t.params = s.params ∧ t.console.input = [] ∧ t.console.output = s.console.output ++ [ch]) ∧
  (∀ s t : State, s.run = .running → step s = .next t → t.held = some .getcRead ∨ t.held = some .inRead →
    t.console.input = [] ∧ t.run = .running)

/-! ### The step -/

/-- R60, R61, R23: a running core with no step held increments the PC, reads the word at the old PC through MemRead,
and runs the instruction it decodes to; a fetch the console stops decodes nothing. -/
def Obligations.StepRunsTheDecodedInstruction : Prop :=
  (∀ s : State, s.run = .running → s.held = none → s.pc ≠ kbsr →
    step s = exec (decode (s.word s.pc)) { s with pc := s.pc + 1 }) ∧
  (∀ (s : State) (ir : Word) (s1 : State), s.run = .running → s.held = none →
    memRead s.pc { s with pc := s.pc + 1 } = .done ir s1 → step s = exec (decode ir) s1) ∧
  (∀ s s1 : State, s.run = .running → s.held = none →
    memRead s.pc { s with pc := s.pc + 1 } = .stopped s1 → step s = .next s1)

/-- R60 first line, R32, R194 (decision D23): a core that is not RUNNING does not change. -/
def Obligations.StoppedCoreDoesNotChange : Prop :=
  ∀ s : State, s.run ≠ .running → step s = .next s

/-- R186: on a fatal condition RUN becomes FAULTED(cause) and nothing else changes, and the core stays stopped. -/
def Obligations.FatalConditionChangesOnlyRun : Prop :=
  ∀ (c : Cause) (s : State), raiseFatal c s = { s with run := .faulted c } ∧
    SameRegs s (raiseFatal c s) ∧ SameWords s (raiseFatal c s) ∧ (raiseFatal c s).pc = s.pc ∧
    (raiseFatal c s).cond = s.cond ∧ step (raiseFatal c s) = .next (raiseFatal c s)

/-- R14, R86, R181: every step of every state ends in a next state; no word, operand or address stops the model. -/
def Obligations.EveryStepHasANextState : Prop :=
  (∀ (i : Instr) (s : State), ∃ t, exec i s = .next t) ∧ ∀ s : State, ∃ t, step s = .next t

/-- R38, R211 (registers and COND by decisions D8, D9, RUN by D11, memory by D10; logs 2, 3, 18; the parameters'
defaults by D5, D15, log 6; that no step is held is log 11): the state after reset. -/
def Obligations.ResetStateIsAsTheSpecSays : Prop :=
  (∀ r, State.reset.reg r = 0) ∧ State.reset.pc = 0x3000 ∧ State.reset.cond = .zero ∧ State.reset.run = .running ∧
  (∀ a : Word, State.reset.word a = 0) ∧ State.reset.console.output = [] ∧ State.reset.held = none ∧
  State.reset.params.pollMode = .bit15Only ∧
  State.reset.params.inPrompt = "Enter a character: ".toList.map fun c => BitVec.ofNat 8 c.toNat

/-- R210 (decision D22, log 21): reset at any time gives the registers, the PC, COND and RUN their reset values, from
HALTED and FAULTED too, and does not touch memory. -/
def Obligations.ResetRestartsTheCoreAndKeepsMemory : Prop :=
  ∀ s : State, (∀ r, (applyReset s).reg r = 0) ∧ (applyReset s).pc = 0x3000 ∧ (applyReset s).cond = .zero ∧
    (applyReset s).run = .running ∧ (applyReset s).held = none ∧ (applyReset s).mem = s.mem ∧
    (applyReset s).console.output = [] ∧ (applyReset s).console.input = s.console.input

/-- The invariant holds after reset: the memory is in the model's canonical form (the model's choice, log 1) and no step
is held in a stopped core (R194; the form of holding is log 11). -/
def Obligations.InvariantHoldsAtReset : Prop := Inv State.reset

/-- Every step of every state that meets the invariant keeps it: MEM stays in canonical form (the model's
choice of how to hold it, log 1), and a step is held only while the core is running (R194; log 11). -/
def Obligations.EveryStepKeepsTheInvariant : Prop :=
  ∀ s t : State, Inv s → step s = .next t → Inv t

/-- R180, R181 (causes by decisions D11, D24): a running core stops in two ways only: it executed HALT, or a fatal
condition arose, which is RTI or RES, a TRAP with an undefined vector, or a failing console operation. -/
def Obligations.CoreStopsInTwoWaysOnly : Prop :=
  ∀ s t : State, s.run = .running → step s = .next t → t.run ≠ .running →
    (∃ ir s1, s.held = none ∧ fetch s = .done ir s1 ∧
      ((decode ir = .halt ∧ t = { s1 with run := .halted }) ∨
       ((decode ir = .rti ∨ decode ir = .res) ∧ t = { s1 with run := .faulted .illegalOpcode }) ∨
       ((∃ v, decode ir = .trapUndefined v) ∧ t = { s1 with run := .faulted .illegalTrapVector }))) ∨
    (t.run = .faulted .ioFailure ∧ t.console.failAfter = some 0 ∧ ∃ n, s.console.failAfter = some n)

/-- R182, R24 (decision D12): when a step that fetched ends FAULTED, the PC is the address of its instruction plus one,
and no register and no flag has changed. -/
def Obligations.FatalConditionsArePrecise : Prop :=
  ∀ (s t : State) (c : Cause), s.run = .running → s.held = none → step s = .next t → t.run = .faulted c →
    t.pc = s.pc + 1 ∧ SameRegs s t ∧ t.cond = s.cond

/-- R21 (derived there): which general register each instruction writes; a held step writes R0 (GETC, IN) or none. -/
def Obligations.OnlyTheListedRegisterIsWritten : Prop :=
  (∀ (i : Instr) (s t : State), exec i s = .next t → ∀ r, writesReg i ≠ some r → t.reg r = s.reg r) ∧
  (∀ (h : Held) (s : State), SameRegsBut .r0 s (resumeHeld h s)) ∧
  (∀ (p : Word) (s : State), SameRegs s (resumeHeld (.putsAt p) s) ∧ SameRegs s (resumeHeld (.putspAt p) s))

/-- R24 (derived there): the PC after each instruction, in terms of the PC its effects begin with, whatever else it
does; a held step does not change the PC. -/
def Obligations.PcAfterEachInstruction : Prop :=
  (∀ (i : Instr) (s t : State), exec i s = .next t → t.pc = pcAfter s i) ∧
  ∀ (h : Held) (s : State), (resumeHeld h s).pc = s.pc

/-- R35, R66 (derived there): an instruction with no memory access leaves every word alone; so does one that is no
store, and a held step, unless it polls the keyboard (the count of answered polls tells, log 10), and then every word
but the two keyboard words stays; a held GETC or IN never touches memory (R152, R155). -/
def Obligations.OnlyStoresAndPollsChangeMemory : Prop :=
  (∀ (i : Instr) (s t : State), exec i s = .next t → noAccess i = true → t.mem = s.mem) ∧
  (∀ (i : Instr) (s t : State), exec i s = .next t → isStore i = false →
    (t.console.polls = s.console.polls → t.mem = s.mem) ∧ ∀ a : Word, a ≠ kbsr → a ≠ kbdr → t.word a = s.word a) ∧
  (∀ (h : Held) (s : State), ((resumeHeld h s).console.polls = s.console.polls → (resumeHeld h s).mem = s.mem) ∧
    ∀ a : Word, a ≠ kbsr → a ≠ kbdr → (resumeHeld h s).word a = s.word a) ∧
  (∀ s : State, (resumeHeld .getcRead s).mem = s.mem ∧ (resumeHeld .inRead s).mem = s.mem) ∧
  (∀ (a : Word) (s t : State) (v : Word), memRead a s = .done v t ∨ memRead a s = .stopped t →
    t.console.polls ≠ s.console.polls → a = kbsr)

/-- R13, R36, R183: a step takes characters only from the front of the input and adds only at the end of the output;
the parameters never change. -/
def Obligations.ConsoleIsReadInOrderAndOnlyAppendedTo : Prop :=
  ∀ s t : State, step s = .next t →
    (∃ taken, s.console.input = taken ++ t.console.input) ∧ (∃ written, t.console.output = s.console.output ++ written) ∧
    t.params = s.params

/-- R65 (derived there), R232: a store to the address after itself changes the instruction that the very next step
runs. -/
def Obligations.StoreToTheNextAddressIsExecutedNext : Prop :=
  ∀ (s : State) (sr : Reg), s.run = .running → s.held = none → s.pc ≠ kbsr → s.pc + 1 ≠ kbsr →
    decode (s.word s.pc) = .st sr 0 →
    ∃ t, step s = .next t ∧ t.word (s.pc + 1) = s.reg sr ∧
      step t = exec (decode (s.reg sr)) { t with pc := s.pc + 1 + 1 }

/-- R61 (decision D6, log 7): a fetch from KBSR polls first; with a key found and bits 14:0 zero the word executed is
0x8000, an RTI, and KBDR has the character; with none found it is 0x0000, which changes nothing but the PC (KBSR's bit
15 was cleared by the poll). -/
def Obligations.FetchFromKbsrExecutesTheUpdatedWord : Prop :=
  (∀ (s : State) (ch : Byte) (rest : List Byte), s.run = .running → s.held = none → s.pc = kbsr →
    s.word kbsr &&& 0x7FFF = 0 → s.console.input = ch :: rest → s.console.findsKey = true → Answers 2 s.console →
    ∃ t, step s = .next t ∧ t.run = .faulted .illegalOpcode ∧ t.pc = 0xFE01 ∧ t.word kbsr = 0x8000 ∧
      t.word kbdr = zext8 ch ∧ t.console.input = rest ∧ t.console.output = s.console.output ∧
      (∀ a : Word, a ≠ kbsr → a ≠ kbdr → t.word a = s.word a) ∧ SameRegs s t ∧ t.cond = s.cond ∧ t.held = none ∧
      t.params = s.params) ∧
  (∀ s : State, s.run = .running → s.held = none → s.pc = kbsr → s.word kbsr &&& 0x7FFF = 0 →
    s.console.findsKey = false → Answers 1 s.console →
    ∃ t, step s = .next t ∧ t.run = .running ∧ t.pc = 0xFE01 ∧ t.word kbsr = 0 ∧ SameWordsBut kbsr s t ∧
      t.console.input = s.console.input ∧ t.console.output = s.console.output ∧ SameRegs s t ∧ t.cond = s.cond ∧
      t.held = none ∧ t.params = s.params)

/-! ### The boundary -/

/-- R222, R57: an image is an even number of bytes, at least two, big-endian: word k of it is 256 times byte 2k plus byte
2k + 1. The first word is the origin, and the others are copied from the origin on, up to 0xFFFF and not past it; every
other word stays. The model's choices (log 22): an image with an odd number of bytes or with none is refused, and an
origin word alone is accepted and loads nothing. -/
def Obligations.LoaderCopiesTheImageFromItsOrigin : Prop :=
  (∀ bytes : List Byte, bytes.length % 2 = 0 → ∃ ws, imageWords bytes = some ws ∧ 2 * ws.length = bytes.length ∧
    ∀ k, k < ws.length →
      (ws.getD k 0).toNat = 256 * (bytes.getD (2 * k) 0).toNat + (bytes.getD (2 * k + 1) 0).toNat) ∧
  (∀ (bytes : List Byte) (origin : Word) (ws : List Word) (m : Memory), imageWords bytes = some (origin :: ws) →
    ∃ m', loadImage bytes m = some m' ∧
      ∀ a : Word, Memory.lookup m' a.toNat =
        if origin.toNat ≤ a.toNat ∧ a.toNat < origin.toNat + ws.length
        then ws.getD (a.toNat - origin.toNat) 0 else Memory.lookup m a.toNat) ∧
  (∀ (hi lo : Byte) (m : Memory), loadImage [hi, lo] m = some m) ∧
  (∀ (bytes : List Byte) (m : Memory), bytes.length % 2 = 1 ∨ bytes = [] → loadImage bytes m = none)

/-- The interface's `withFetchWord` (log 25): the very next step runs exactly the instruction of the word. -/
def Obligations.FetchWordIsRunByTheNextStep : Prop :=
  ∀ (s : State) (w : Nat), s.pc ≠ kbsr → w < 65536 → ∃ i, decodeTableWord 16 w = some i ∧
    step (s.withFetchWord 16 w) = exec i { s.withFetchWord 16 w with pc := s.pc + 1 }
end

