-- ==== Sys2Proof/Laws/State.lean ====
section
/-! SUPPORT. One lemma per field per update of the state, so that no later proof unfolds a record update. -/

namespace Sys2Proof.Machine

/-! ### `writeReg` -/

@[simp] theorem writeReg_regs (r : Reg) (v : Word) (s : State) : (writeReg r v s).regs = s.regs.set r v := rfl
@[simp] theorem writeReg_pc (r : Reg) (v : Word) (s : State) : (writeReg r v s).pc = s.pc := rfl
@[simp] theorem writeReg_cond (r : Reg) (v : Word) (s : State) : (writeReg r v s).cond = s.cond := rfl
@[simp] theorem writeReg_run (r : Reg) (v : Word) (s : State) : (writeReg r v s).run = s.run := rfl
@[simp] theorem writeReg_mem (r : Reg) (v : Word) (s : State) : (writeReg r v s).mem = s.mem := rfl
@[simp] theorem writeReg_console (r : Reg) (v : Word) (s : State) : (writeReg r v s).console = s.console := rfl
@[simp] theorem writeReg_held (r : Reg) (v : Word) (s : State) : (writeReg r v s).held = s.held := rfl
@[simp] theorem writeReg_params (r : Reg) (v : Word) (s : State) : (writeReg r v s).params = s.params := rfl
@[simp] theorem writeReg_word (r : Reg) (v : Word) (s : State) (b : Word) : (writeReg r v s).word b = s.word b := rfl

/-! ### `writePc` -/

@[simp] theorem writePc_regs (v : Word) (s : State) : (writePc v s).regs = s.regs := rfl
@[simp] theorem writePc_pc (v : Word) (s : State) : (writePc v s).pc = v := rfl
@[simp] theorem writePc_cond (v : Word) (s : State) : (writePc v s).cond = s.cond := rfl
@[simp] theorem writePc_run (v : Word) (s : State) : (writePc v s).run = s.run := rfl
@[simp] theorem writePc_mem (v : Word) (s : State) : (writePc v s).mem = s.mem := rfl
@[simp] theorem writePc_console (v : Word) (s : State) : (writePc v s).console = s.console := rfl
@[simp] theorem writePc_held (v : Word) (s : State) : (writePc v s).held = s.held := rfl
@[simp] theorem writePc_params (v : Word) (s : State) : (writePc v s).params = s.params := rfl
@[simp] theorem writePc_reg (v : Word) (s : State) (q : Reg) : (writePc v s).reg q = s.reg q := rfl
@[simp] theorem writePc_word (v : Word) (s : State) (b : Word) : (writePc v s).word b = s.word b := rfl

/-! ### `setcc` -/

@[simp] theorem setcc_regs (v : Word) (s : State) : (setcc v s).regs = s.regs := rfl
@[simp] theorem setcc_pc (v : Word) (s : State) : (setcc v s).pc = s.pc := rfl
@[simp] theorem setcc_cond (v : Word) (s : State) : (setcc v s).cond = condOf v := rfl
@[simp] theorem setcc_run (v : Word) (s : State) : (setcc v s).run = s.run := rfl
@[simp] theorem setcc_mem (v : Word) (s : State) : (setcc v s).mem = s.mem := rfl
@[simp] theorem setcc_console (v : Word) (s : State) : (setcc v s).console = s.console := rfl
@[simp] theorem setcc_held (v : Word) (s : State) : (setcc v s).held = s.held := rfl
@[simp] theorem setcc_params (v : Word) (s : State) : (setcc v s).params = s.params := rfl
@[simp] theorem setcc_reg (v : Word) (s : State) (q : Reg) : (setcc v s).reg q = s.reg q := rfl
@[simp] theorem setcc_word (v : Word) (s : State) (b : Word) : (setcc v s).word b = s.word b := rfl

/-! ### `memWrite` -/

@[simp] theorem memWrite_regs (a v : Word) (s : State) : (memWrite a v s).regs = s.regs := rfl
@[simp] theorem memWrite_pc (a v : Word) (s : State) : (memWrite a v s).pc = s.pc := rfl
@[simp] theorem memWrite_cond (a v : Word) (s : State) : (memWrite a v s).cond = s.cond := rfl
@[simp] theorem memWrite_run (a v : Word) (s : State) : (memWrite a v s).run = s.run := rfl
@[simp] theorem memWrite_mem (a v : Word) (s : State) : (memWrite a v s).mem = Memory.store s.mem a.toNat v := rfl
@[simp] theorem memWrite_console (a v : Word) (s : State) : (memWrite a v s).console = s.console := rfl
@[simp] theorem memWrite_held (a v : Word) (s : State) : (memWrite a v s).held = s.held := rfl
@[simp] theorem memWrite_params (a v : Word) (s : State) : (memWrite a v s).params = s.params := rfl
@[simp] theorem memWrite_reg (a v : Word) (s : State) (q : Reg) : (memWrite a v s).reg q = s.reg q := rfl

/-! ### `raiseFatal` -/

@[simp] theorem raiseFatal_regs (c : Cause) (s : State) : (raiseFatal c s).regs = s.regs := rfl
@[simp] theorem raiseFatal_pc (c : Cause) (s : State) : (raiseFatal c s).pc = s.pc := rfl
@[simp] theorem raiseFatal_cond (c : Cause) (s : State) : (raiseFatal c s).cond = s.cond := rfl
@[simp] theorem raiseFatal_run (c : Cause) (s : State) : (raiseFatal c s).run = .faulted c := rfl
@[simp] theorem raiseFatal_mem (c : Cause) (s : State) : (raiseFatal c s).mem = s.mem := rfl
@[simp] theorem raiseFatal_console (c : Cause) (s : State) : (raiseFatal c s).console = s.console := rfl
@[simp] theorem raiseFatal_held (c : Cause) (s : State) : (raiseFatal c s).held = s.held := rfl
@[simp] theorem raiseFatal_params (c : Cause) (s : State) : (raiseFatal c s).params = s.params := rfl
@[simp] theorem raiseFatal_reg (c : Cause) (s : State) (q : Reg) : (raiseFatal c s).reg q = s.reg q := rfl
@[simp] theorem raiseFatal_word (c : Cause) (s : State) (b : Word) : (raiseFatal c s).word b = s.word b := rfl

/-! ### `haltCore` -/

@[simp] theorem haltCore_regs (s : State) : (haltCore s).regs = s.regs := rfl
@[simp] theorem haltCore_pc (s : State) : (haltCore s).pc = s.pc := rfl
@[simp] theorem haltCore_cond (s : State) : (haltCore s).cond = s.cond := rfl
@[simp] theorem haltCore_run (s : State) : (haltCore s).run = .halted := rfl
@[simp] theorem haltCore_mem (s : State) : (haltCore s).mem = s.mem := rfl
@[simp] theorem haltCore_console (s : State) : (haltCore s).console = s.console := rfl
@[simp] theorem haltCore_held (s : State) : (haltCore s).held = s.held := rfl
@[simp] theorem haltCore_params (s : State) : (haltCore s).params = s.params := rfl
@[simp] theorem haltCore_reg (s : State) (q : Reg) : (haltCore s).reg q = s.reg q := rfl
@[simp] theorem haltCore_word (s : State) (b : Word) : (haltCore s).word b = s.word b := rfl

/-! ### `holdAt` -/

@[simp] theorem holdAt_regs (h : Held) (s : State) : (holdAt h s).regs = s.regs := rfl
@[simp] theorem holdAt_pc (h : Held) (s : State) : (holdAt h s).pc = s.pc := rfl
@[simp] theorem holdAt_cond (h : Held) (s : State) : (holdAt h s).cond = s.cond := rfl
@[simp] theorem holdAt_run (h : Held) (s : State) : (holdAt h s).run = s.run := rfl
@[simp] theorem holdAt_mem (h : Held) (s : State) : (holdAt h s).mem = s.mem := rfl
@[simp] theorem holdAt_console (h : Held) (s : State) : (holdAt h s).console = s.console := rfl
@[simp] theorem holdAt_held (h : Held) (s : State) : (holdAt h s).held = some h := rfl
@[simp] theorem holdAt_params (h : Held) (s : State) : (holdAt h s).params = s.params := rfl
@[simp] theorem holdAt_reg (h : Held) (s : State) (q : Reg) : (holdAt h s).reg q = s.reg q := rfl
@[simp] theorem holdAt_word (h : Held) (s : State) (b : Word) : (holdAt h s).word b = s.word b := rfl

/-! ### `writeRegCC` and `pcPast` -/

theorem writeRegCC_eq (r : Reg) (v : Word) (s : State) :
    writeRegCC r v s = { s with regs := s.regs.set r v, cond := condOf v } := rfl

theorem pcPast_eq (s : State) : pcPast s = { s with pc := s.pc + 1 } := rfl

@[simp] theorem writeRegCC_word (r : Reg) (v : Word) (s : State) (b : Word) : (writeRegCC r v s).word b = s.word b := rfl

@[simp] theorem pcPast_word (s : State) (b : Word) : (pcPast s).word b = s.word b := rfl

@[simp] theorem pcPast_reg (s : State) (q : Reg) : (pcPast s).reg q = s.reg q := rfl

/-! ### Reading a register after writing one -/

@[simp] theorem regFile_get_set_same (f : RegFile) (r : Reg) (v : Word) : (f.set r v).get r = v := by
  cases r <;> rfl

theorem regFile_get_set_ne (f : RegFile) {r q : Reg} (v : Word) (h : q ≠ r) : (f.set r v).get q = f.get q := by
  cases r <;> cases q <;> first | rfl | exact absurd rfl h

@[simp] theorem writeReg_reg_same (r : Reg) (v : Word) (s : State) : (writeReg r v s).reg r = v :=
  regFile_get_set_same s.regs r v

theorem writeReg_reg_ne {r q : Reg} (v : Word) (s : State) (h : q ≠ r) : (writeReg r v s).reg q = s.reg q :=
  regFile_get_set_ne s.regs v h

/-- Two register files that read the same are the same. -/
theorem regFile_ext {f g : RegFile} (h : ∀ r, f.get r = g.get r) : f = g := by
  have h0 := h .r0; have h1 := h .r1; have h2 := h .r2; have h3 := h .r3
  have h4 := h .r4; have h5 := h .r5; have h6 := h .r6; have h7 := h .r7
  cases f; cases g
  simp only [RegFile.get] at h0 h1 h2 h3 h4 h5 h6 h7
  subst h0 h1 h2 h3 h4 h5 h6 h7
  rfl

/-! ### Ending a step -/

@[simp] theorem andThen_done {α β : Type} (a : α) (s : State) (k : α → State → Result β) :
    (Result.done a s).andThen k = k a s := rfl

@[simp] theorem andThen_stopped {α β : Type} (s : State) (k : α → State → Result β) :
    (Result.stopped s : Result α).andThen k = .stopped s := rfl

@[simp] theorem finish_done {α : Type} (a : α) (s : State) (k : α → State → State) :
    (Result.done a s).finish k = k a s := rfl

@[simp] theorem finish_stopped {α : Type} (s : State) (k : α → State → State) :
    (Result.stopped s : Result α).finish k = s := rfl

@[simp] theorem state_done {α : Type} (a : α) (s : State) : (Result.done a s).state = s := rfl

@[simp] theorem state_stopped {α : Type} (s : State) : (Result.stopped s : Result α).state = s := rfl

end Sys2Proof.Machine
end

