-- ==== Sys2Proof/Laws/Memory.lean ====
section
/-! SUPPORT. The stored words: read after write, and the canonical form that every memory operation keeps. -/

namespace Sys2Proof.Machine

/-! ### Reading -/

@[simp] theorem lookup_nil (a : Nat) : Memory.lookup [] a = unlistedWord := rfl

theorem lookup_cons (k : Nat) (w : Word) (m : Memory) (a : Nat) :
    Memory.lookup ((k, w) :: m) a = if a = k then w else Memory.lookup m a := rfl

theorem lookup_remove (m : Memory) (a b : Nat) :
    Memory.lookup (Memory.remove m a) b = if b = a then unlistedWord else Memory.lookup m b := by
  induction m with
  | nil => simp [Memory.remove]
  | cons cell m ih =>
    obtain ⟨k, w⟩ := cell
    unfold Memory.remove at ih ⊢
    by_cases hk : k = a
    · subst hk
      rw [List.filter_cons_of_neg (by simp), ih, lookup_cons]
      by_cases hb : b = k <;> simp [hb]
    · rw [List.filter_cons_of_pos (by simpa using hk), lookup_cons, ih, lookup_cons]
      by_cases hb : b = k
      · subst hb; simp [hk]
      · simp [hb]

theorem lookup_insert (m : Memory) (a : Nat) (v : Word) (b : Nat) (h : ∀ cell ∈ m, cell.1 ≠ a) :
    Memory.lookup (Memory.insert a v m) b = if b = a then v else Memory.lookup m b := by
  induction m with
  | nil => rfl
  | cons cell m ih =>
    obtain ⟨k, w⟩ := cell
    have hk : k ≠ a := h (k, w) (by simp)
    have ih := ih fun c hc => h c (by simp [hc])
    unfold Memory.insert
    split
    · rfl
    · rw [lookup_cons, ih, lookup_cons]
      by_cases hb : b = k
      · subst hb; simp [hk]
      · simp [hb]

theorem remove_has_no_entry (m : Memory) (a : Nat) : ∀ cell ∈ Memory.remove m a, cell.1 ≠ a := by
  intro cell hc
  simpa using (List.mem_filter.mp hc).2

/-- Read after write (R55, R63). -/
theorem lookup_store (m : Memory) (a : Nat) (v : Word) (b : Nat) :
    Memory.lookup (Memory.store m a v) b = if b = a then v else Memory.lookup m b := by
  unfold Memory.store
  split
  · next hv => rw [lookup_remove, hv]
  · rw [lookup_insert _ _ _ _ (remove_has_no_entry m a), lookup_remove]
    by_cases hb : b = a <;> simp [hb]

theorem memWrite_word (a v : Word) (s : State) (b : Word) :
    (memWrite a v s).word b = if b = a then v else s.word b := by
  have h : b.toNat = a.toNat ↔ b = a := BitVec.toNat_inj
  simp only [State.word, memWrite_mem, lookup_store, h]

@[simp] theorem memWrite_word_same (a v : Word) (s : State) : (memWrite a v s).word a = v := by
  simp [memWrite_word]

theorem memWrite_word_ne {a b : Word} (v : Word) (s : State) (h : b ≠ a) : (memWrite a v s).word b = s.word b := by
  simp [memWrite_word, h]

/-! ### The canonical form -/

theorem wfFrom_cons (lo k : Nat) (w : Word) (m : Memory) :
    Memory.wfFrom lo ((k, w) :: m) = true ↔
      (lo ≤ k ∧ k < 65536 ∧ w ≠ unlistedWord) ∧ Memory.wfFrom (k + 1) m = true := by
  simp [Memory.wfFrom]

theorem wfFrom_mono {lo lo' : Nat} (h : lo' ≤ lo) {m : Memory} (hm : Memory.wfFrom lo m = true) :
    Memory.wfFrom lo' m = true := by
  cases m with
  | nil => rfl
  | cons cell m =>
    obtain ⟨k, w⟩ := cell
    rw [wfFrom_cons] at hm ⊢
    exact ⟨⟨h.trans hm.1.1, hm.1.2⟩, hm.2⟩

theorem wfFrom_remove {lo : Nat} {m : Memory} (a : Nat) (hm : Memory.wfFrom lo m = true) :
    Memory.wfFrom lo (Memory.remove m a) = true := by
  induction m generalizing lo with
  | nil => rfl
  | cons cell m ih =>
    obtain ⟨k, w⟩ := cell
    obtain ⟨hk, hm⟩ := (wfFrom_cons lo k w m).mp hm
    have ih := ih hm
    unfold Memory.remove at ih ⊢
    by_cases hka : k = a
    · rw [List.filter_cons_of_neg (by simp [hka])]
      exact wfFrom_mono (by omega) ih
    · rw [List.filter_cons_of_pos (by simpa using hka), wfFrom_cons]
      exact ⟨hk, ih⟩

theorem wfFrom_insert {lo a : Nat} {v : Word} {m : Memory} (hlo : lo ≤ a) (ha : a < 65536) (hv : v ≠ unlistedWord)
    (hne : ∀ cell ∈ m, cell.1 ≠ a) (hm : Memory.wfFrom lo m = true) :
    Memory.wfFrom lo (Memory.insert a v m) = true := by
  induction m generalizing lo with
  | nil => simp [Memory.insert, Memory.wfFrom, hlo, ha, hv]
  | cons cell m ih =>
    obtain ⟨k, w⟩ := cell
    have hk : k ≠ a := hne (k, w) (by simp)
    obtain ⟨hkw, hm⟩ := (wfFrom_cons lo k w m).mp hm
    unfold Memory.insert
    split
    · next hak =>
      rw [wfFrom_cons, wfFrom_cons]
      exact ⟨⟨hlo, ha, hv⟩, ⟨by omega, hkw.2⟩, hm⟩
    · next hak =>
      rw [wfFrom_cons]
      exact ⟨hkw, ih (by omega) (fun c hc => hne c (by simp [hc])) hm⟩

/-- A store keeps the canonical form. -/
theorem wf_store {m : Memory} {a : Nat} (v : Word) (ha : a < 65536) (hm : Memory.wf m = true) :
    Memory.wf (Memory.store m a v) = true := by
  unfold Memory.store
  split
  · exact wfFrom_remove a hm
  · next hv => exact wfFrom_insert (Nat.zero_le a) ha hv (remove_has_no_entry m a) (wfFrom_remove a hm)

theorem memWrite_wf (a v : Word) {s : State} (hs : Memory.wf s.mem = true) : Memory.wf (memWrite a v s).mem = true :=
  wf_store v (by exact a.isLt) hs

/-- Below its lower bound a canonical memory lists nothing. -/
theorem lookup_below {lo a : Nat} {m : Memory} (hm : Memory.wfFrom lo m = true) (ha : a < lo) :
    Memory.lookup m a = unlistedWord := by
  induction m generalizing lo with
  | nil => rfl
  | cons cell m ih =>
    obtain ⟨k, w⟩ := cell
    obtain ⟨hk, hm⟩ := (wfFrom_cons lo k w m).mp hm
    rw [lookup_cons, if_neg (by omega)]
    exact ih hm (by omega)

end Sys2Proof.Machine
end

