-- ==== Sys2Proof/Laws/Console.lean ====
section
/-! SUPPORT. What the console operations and the keyboard adapter can do, said once each. -/

namespace Sys2Proof.Machine

/-! ### One answer -/

theorem answer_fails {c : Console} (h : c.failAfter = some 0) : c.answer = none := by
  simp [Console.answer, h]

/-- An operation that does not fail only counts down the operations left before a failure. -/
theorem answer_of_answers {c : Console} (h : Answers 1 c) : c.answer = some (c.after 1) := by
  obtain ⟨i, k, p, y, z, f, o⟩ := c
  cases f with
  | none => rfl
  | some n =>
    cases n with
    | zero => exact absurd (h 0 rfl) (by omega)
    | succ n => rfl

theorem answers_after {n m : Nat} {c : Console} (h : Answers (n + m) c) : Answers m (c.after n) := by
  intro k hk
  simp only [Console.after, Option.map_eq_some_iff] at hk
  obtain ⟨j, hj, rfl⟩ := hk
  have := h j hj
  omega

theorem answers_mono {n m : Nat} {c : Console} (h : Answers n c) (hm : m ≤ n) : Answers m c :=
  fun k hk => hm.trans (h k hk)

/-- An operation is answered or fails; it fails exactly when none is left before a failure. -/
theorem answer_cases (c : Console) :
    (c.failAfter = some 0 ∧ c.answer = none) ∨ (Answers 1 c ∧ c.answer = some (c.after 1)) := by
  by_cases h : c.failAfter = some 0
  · exact .inl ⟨h, answer_fails h⟩
  · have h1 : Answers 1 c := by
      intro k hk
      rcases k with _ | k
      · exact absurd hk h
      · omega
    exact .inr ⟨h1, answer_of_answers h1⟩

@[simp] theorem after_input (n : Nat) (c : Console) : (c.after n).input = c.input := rfl
@[simp] theorem after_keyReady (n : Nat) (c : Console) : (c.after n).keyReady = c.keyReady := rfl
@[simp] theorem after_polls (n : Nat) (c : Console) : (c.after n).polls = c.polls := rfl
@[simp] theorem after_keysFound (n : Nat) (c : Console) : (c.after n).keysFound = c.keysFound := rfl
@[simp] theorem after_idlePolls (n : Nat) (c : Console) : (c.after n).idlePolls = c.idlePolls := rfl
@[simp] theorem after_output (n : Nat) (c : Console) : (c.after n).output = c.output := rfl
@[simp] theorem after_findsKey (n : Nat) (c : Console) : (c.after n).findsKey = c.findsKey := rfl

theorem after_after (n m : Nat) (c : Console) : (c.after n).after m = c.after (n + m) := by
  obtain ⟨i, k, p, y, z, f, o⟩ := c
  cases f with
  | none => rfl
  | some x => simp [Console.after, Nat.sub_sub]

/-! ### The four operations -/

/-- What an operation of the console can do: fail, stopping the step with RUN = FAULTED(IO_FAILURE) and nothing else
changed; or be answered. -/
theorem consoleAvail_cases (s : State) :
    (s.console.failAfter = some 0 ∧ consoleAvail s = .stopped (raiseFatal .ioFailure s)) ∨
    (Answers 1 s.console ∧
      consoleAvail s = .done s.console.findsKey { s with console := (s.console.after 1).polled }) := by
  rcases answer_cases s.console with ⟨h, ha⟩ | ⟨h, ha⟩
  · exact .inl ⟨h, by simp [consoleAvail, ha]⟩
  · exact .inr ⟨h, by simp [consoleAvail, ha]⟩

theorem consoleWrite_cases (ch : Byte) (s : State) :
    (s.console.failAfter = some 0 ∧ consoleWrite ch s = .stopped (raiseFatal .ioFailure s)) ∨
    (Answers 1 s.console ∧ consoleWrite ch s =
      .done () { s with console := { s.console.after 1 with output := s.console.output ++ [ch] } }) := by
  rcases answer_cases s.console with ⟨h, ha⟩ | ⟨h, ha⟩
  · exact .inl ⟨h, by simp [consoleWrite, ha]⟩
  · exact .inr ⟨h, by simp [consoleWrite, ha]⟩

theorem consoleFlush_cases (s : State) :
    (s.console.failAfter = some 0 ∧ consoleFlush s = .stopped (raiseFatal .ioFailure s)) ∨
    (Answers 1 s.console ∧ consoleFlush s = .done () { s with console := s.console.after 1 }) := by
  rcases answer_cases s.console with ⟨h, ha⟩ | ⟨h, ha⟩
  · exact .inl ⟨h, by simp [consoleFlush, ha]⟩
  · exact .inr ⟨h, by simp [consoleFlush, ha]⟩

theorem consoleRead_cases (waiting : State → State) (s : State) :
    (s.console.failAfter = some 0 ∧ consoleRead waiting s = .stopped (raiseFatal .ioFailure s)) ∨
    (Answers 1 s.console ∧ s.console.input = [] ∧ consoleRead waiting s = .stopped (waiting s)) ∨
    (Answers 1 s.console ∧ ∃ ch rest, s.console.input = ch :: rest ∧
      consoleRead waiting s = .done ch { s with console := { s.console.after 1 with input := rest } }) := by
  rcases answer_cases s.console with ⟨h, ha⟩ | ⟨h, ha⟩
  · exact .inl ⟨h, by simp [consoleRead, ha]⟩
  · cases hi : s.console.input with
    | nil => exact .inr (.inl ⟨h, rfl, by simp [consoleRead, ha, hi]⟩)
    | cons ch rest => exact .inr (.inr ⟨h, ch, rest, rfl, by simp [consoleRead, ha, hi]⟩)

/-- `ConsoleAvail` finds a key only when a character is unread, so the read of a poll never waits (R13). -/
theorem consoleAvail_true_unread {c : Console} (h : c.findsKey = true) : ∃ ch rest, c.input = ch :: rest := by
  cases hi : c.input with
  | nil => simp [Console.findsKey, hi] at h
  | cons ch rest => exact ⟨ch, rest, rfl⟩

/-! ### The keyboard adapter -/

/-- The state with another console. -/
def withConsole (c : Console) (s : State) : State := { s with console := c }

@[simp] theorem withConsole_console (c : Console) (s : State) : (withConsole c s).console = c := rfl
@[simp] theorem withConsole_word (c : Console) (s : State) (a : Word) : (withConsole c s).word a = s.word a := rfl
@[simp] theorem withConsole_reg (c : Console) (s : State) (q : Reg) : (withConsole c s).reg q = s.reg q := rfl

/-- After a poll that took the character `ch` and left `rest` unread. -/
def pollTook (ch : Byte) (rest : List Byte) (s : State) : State :=
  memWrite kbdr (zext8 ch) (withConsole { (s.console.after 2).polled with input := rest }
    (memWrite kbsr (statusReady s.params.pollMode (s.word kbsr)) s))

/-- After a poll whose read failed: the status word is set already. -/
def pollReadFailed (s : State) : State :=
  raiseFatal .ioFailure (withConsole (s.console.after 1).polled
    (memWrite kbsr (statusReady s.params.pollMode (s.word kbsr)) s))

/-- After a poll that found no key. -/
def pollIdle (s : State) : State :=
  withConsole (s.console.after 1).polled (memWrite kbsr (statusIdle s.params.pollMode (s.word kbsr)) s)

theorem kbdr_ne_kbsr : kbdr ≠ kbsr := by decide

@[simp] theorem pollTook_kbsr (ch : Byte) (rest : List Byte) (s : State) :
    (pollTook ch rest s).word kbsr = statusReady s.params.pollMode (s.word kbsr) := by
  rw [pollTook, memWrite_word_ne _ _ kbdr_ne_kbsr.symm, withConsole_word, memWrite_word_same]

@[simp] theorem pollTook_kbdr (ch : Byte) (rest : List Byte) (s : State) :
    (pollTook ch rest s).word kbdr = zext8 ch := by
  rw [pollTook, memWrite_word_same]

theorem pollTook_word (ch : Byte) (rest : List Byte) (s : State) {a : Word} (h1 : a ≠ kbsr) (h2 : a ≠ kbdr) :
    (pollTook ch rest s).word a = s.word a := by
  rw [pollTook, memWrite_word_ne _ _ h2, withConsole_word, memWrite_word_ne _ _ h1]

@[simp] theorem pollReadFailed_kbsr (s : State) :
    (pollReadFailed s).word kbsr = statusReady s.params.pollMode (s.word kbsr) := by
  rw [pollReadFailed, raiseFatal_word, withConsole_word, memWrite_word_same]

theorem pollReadFailed_word (s : State) {a : Word} (h : a ≠ kbsr) : (pollReadFailed s).word a = s.word a := by
  rw [pollReadFailed, raiseFatal_word, withConsole_word, memWrite_word_ne _ _ h]

@[simp] theorem pollIdle_kbsr (s : State) :
    (pollIdle s).word kbsr = statusIdle s.params.pollMode (s.word kbsr) := by
  rw [pollIdle, withConsole_word, memWrite_word_same]

theorem pollIdle_word (s : State) {a : Word} (h : a ≠ kbsr) : (pollIdle s).word a = s.word a := by
  rw [pollIdle, withConsole_word, memWrite_word_ne _ _ h]

/-- Everything a poll can do (R52, R53): the availability question fails; a key is found and taken; a key is found
and its read fails, after the status word was set; no key is found. -/
theorem keyboardPoll_cases (s : State) :
    (s.console.failAfter = some 0 ∧ keyboardPoll s = .stopped (raiseFatal .ioFailure s)) ∨
    (Answers 2 s.console ∧ s.console.findsKey = true ∧ ∃ ch rest, s.console.input = ch :: rest ∧
      keyboardPoll s = .done () (pollTook ch rest s)) ∨
    (s.console.failAfter = some 1 ∧ s.console.findsKey = true ∧ keyboardPoll s = .stopped (pollReadFailed s)) ∨
    (Answers 1 s.console ∧ s.console.findsKey = false ∧ keyboardPoll s = .done () (pollIdle s)) := by
  rcases consoleAvail_cases s with ⟨hf, h⟩ | ⟨h1, h⟩
  · exact .inl ⟨hf, by simp [keyboardPoll, h]⟩
  cases hk : s.console.findsKey with
  | false =>
    refine .inr (.inr (.inr ⟨h1, rfl, ?_⟩))
    simp only [keyboardPoll, h, andThen_done, hk, Bool.false_eq_true, if_false]
    rfl
  | true =>
    obtain ⟨ch, rest, hi⟩ := consoleAvail_true_unread hk
    have hr := consoleRead_cases (raiseFatal .ioFailure)
      (memWrite kbsr (statusReady s.params.pollMode (s.word kbsr))
        { s with console := (s.console.after 1).polled })
    have hp : keyboardPoll s = (consoleRead (raiseFatal .ioFailure)
      (memWrite kbsr (statusReady s.params.pollMode (s.word kbsr))
        { s with console := (s.console.after 1).polled })).andThen
          fun ch s2 => .done () (memWrite kbdr (zext8 ch) s2) := by
      simp only [keyboardPoll, h, andThen_done, hk, if_true]
      rfl
    rw [hp]
    rcases hr with ⟨hf, hr⟩ | ⟨ha, hi', _⟩ | ⟨ha, c', r', hi', hr⟩
    · refine .inr (.inr (.inl ⟨?_, rfl, ?_⟩))
      · simp only [memWrite_console, Console.polled, Console.after, Option.map_eq_some_iff] at hf
        obtain ⟨n, hn, hn0⟩ := hf
        have := h1 n hn
        rw [hn]
        congr 1
        omega
      · rw [hr]; rfl
    · exact absurd (hi.symm.trans (by simpa [Console.polled] using hi')) (by simp)
    · have he : ch = c' ∧ rest = r' := by
        have := hi.symm.trans (by simpa [Console.polled] using hi')
        simpa using this
      obtain ⟨rfl, rfl⟩ := he
      refine .inr (.inl ⟨?_, rfl, ch, rest, hi, ?_⟩)
      · intro k hk'
        have h1' := h1 k hk'
        have := ha (k - 1) (by simp [Console.polled, Console.after, hk'])
        omega
      · rw [hr]
        have : (s.console.after 1).polled.after 1 = (s.console.after 2).polled := by
          rw [show s.console.after 2 = (s.console.after 1).after 1 from (after_after 1 1 _).symm]
          rfl
        simp only [memWrite_console, andThen_done, this]
        rfl

/-- A read of any address but KBSR has no side effect (R51). -/
theorem memRead_ordinary {a : Word} (s : State) (h : a ≠ kbsr) : memRead a s = .done (s.word a) s := by
  simp [memRead, h]

theorem memRead_kbsr (s : State) :
    memRead kbsr s = (keyboardPoll s).andThen fun _ s1 => .done (s1.word kbsr) s1 := by
  simp [memRead]

/-- Everything a read of KBSR can do, with the word it gives. -/
theorem memRead_kbsr_cases (s : State) :
    (s.console.failAfter = some 0 ∧ memRead kbsr s = .stopped (raiseFatal .ioFailure s)) ∨
    (Answers 2 s.console ∧ s.console.findsKey = true ∧ ∃ ch rest, s.console.input = ch :: rest ∧
      memRead kbsr s = .done (statusReady s.params.pollMode (s.word kbsr)) (pollTook ch rest s)) ∨
    (s.console.failAfter = some 1 ∧ s.console.findsKey = true ∧ memRead kbsr s = .stopped (pollReadFailed s)) ∨
    (Answers 1 s.console ∧ s.console.findsKey = false ∧
      memRead kbsr s = .done (statusIdle s.params.pollMode (s.word kbsr)) (pollIdle s)) := by
  rw [memRead_kbsr]
  rcases keyboardPoll_cases s with ⟨h, e⟩ | ⟨h, h', ch, rest, hi, e⟩ | ⟨h, h', e⟩ | ⟨h, h', e⟩
  · exact .inl ⟨h, by rw [e, andThen_stopped]⟩
  · exact .inr (.inl ⟨h, h', ch, rest, hi, by rw [e, andThen_done, pollTook_kbsr]⟩)
  · exact .inr (.inr (.inl ⟨h, h', by rw [e, andThen_stopped]⟩))
  · exact .inr (.inr (.inr ⟨h, h', by rw [e, andThen_done, pollIdle_kbsr]⟩))

end Sys2Proof.Machine
end

