-- ==== Sys2Proof/Laws/Decode.lean ====
section
/-! SUPPORT. Fields of words and of concatenations, and the names behind register and opcode fields. -/

namespace Sys2Proof

@[simp] theorem reg_ofBits_bits (r : Reg) : Reg.ofBits r.bits = r := by cases r <;> rfl

theorem reg_bits_ofBits (b : BitVec 3) : (Reg.ofBits b).bits = b := by revert b; decide

@[simp] theorem opcode_ofBits_bits (o : Opcode) : Opcode.ofBits o.bits = o := by cases o <;> rfl

theorem opcode_bits_ofBits (b : BitVec 4) : (Opcode.ofBits b).bits = b := by revert b; decide

/-- A field that lies in the low part of a concatenation. -/
theorem extract_low {n m lo len : Nat} (x : BitVec n) (y : BitVec m) (h : lo + len ≤ m) :
    (x ++ y).extractLsb' lo len = y.extractLsb' lo len := by
  ext i hi
  simp [BitVec.getLsbD_append]
  omega

/-- A field that lies in the high part of a concatenation. -/
theorem extract_high {n m lo len : Nat} (x : BitVec n) (y : BitVec m) (h : m ≤ lo) :
    (x ++ y).extractLsb' lo len = x.extractLsb' (lo - m) len := by
  ext i hi
  simp [BitVec.getLsbD_append, show ¬ lo + i < m by omega, show lo + i - m = lo - m + i by omega]

@[simp] theorem extract_all {n : Nat} (x : BitVec n) : x.extractLsb' 0 n = x := by
  ext i hi
  simp

/-- The opcode class of a word whose top 4 bits are known. -/
theorem opcodeOf_of_field {ir : Word} {b : BitVec 4} (h : ir.extractLsb' 12 4 = b) :
    opcodeOf ir = Opcode.ofBits b := by
  simp [opcodeOf, field, h]

/-- A jump is called RET exactly when its base register is R7. -/
theorem decodeJump_ne {base : Reg} (h : base ≠ .r7) : decodeJump base = .jmp base := by
  cases base <;> first | rfl | exact absurd rfl h

/-- A vector that no service has. -/
theorem decodeTrap_undefined {v : BitVec 8} (h : v.toNat < 0x20 ∨ 0x25 < v.toNat) :
    decodeTrap v = .trapUndefined v := by
  unfold decodeTrap
  split <;> first | rfl | omega

end Sys2Proof
end

