-- ==== Sys2Proof/Laws/Effects.lean ====
section
/-! SUPPORT. What the operations that read, write to the console or poll can do to the whole state, said once: they
go on (`GoesOn`) or they fail (`Fails`); and what every held step and every service does by these. -/

namespace Sys2Proof.Machine

/-- Memory changed only if a poll was answered in between (R35, R52): the count of polls never falls, and where it is
the same, so is the memory. -/
def MemoryByPolls (s t : State) : Prop :=
  s.console.polls < t.console.polls ∨ (t.console.polls = s.console.polls ∧ t.mem = s.mem)

theorem MemoryByPolls.trans {s t u : State} (h : MemoryByPolls s t) (g : MemoryByPolls t u) : MemoryByPolls s u := by
  rcases h with h | ⟨h, hm⟩ <;> rcases g with g | ⟨g, gm⟩
  · exact .inl (h.trans g)
  · exact .inl (g ▸ h)
  · exact .inl (h ▸ g)
  · exact .inr ⟨g.trans h, gm.trans hm⟩

theorem MemoryByPolls.mem_eq {s t : State} (h : MemoryByPolls s t) (hp : t.console.polls = s.console.polls) :
    t.mem = s.mem := by
  rcases h with h | h
  · omega
  · exact h.2

/-- What no console operation and no read changes, and how the console moves. -/
structure Quiet (s t : State) : Prop where
  regs : t.regs = s.regs
  cond : t.cond = s.cond
  pc : t.pc = s.pc
  params : t.params = s.params
  words : ∀ a : Word, a ≠ kbsr → a ≠ kbdr → t.word a = s.word a
  wf : Memory.wf s.mem = true → Memory.wf t.mem = true
  input : ∃ taken, s.console.input = taken ++ t.console.input
  output : ∃ written, t.console.output = s.console.output ++ written
  failAfter : s.console.failAfter = none → t.console.failAfter = none
  polls : MemoryByPolls s t

/-- An operation was answered and the step goes on. -/
structure GoesOn (s t : State) : Prop extends Quiet s t where
  run : t.run = s.run
  held : t.held = s.held

/-- An operation failed: RUN is FAULTED(IO_FAILURE) and the console has failed. -/
structure Fails (s t : State) : Prop extends Quiet s t where
  run : t.run = .faulted .ioFailure
  held : t.held = s.held
  failed : t.console.failAfter = some 0

theorem Quiet.refl (s : State) : Quiet s s :=
  ⟨rfl, rfl, rfl, rfl, fun _ _ _ => rfl, id, ⟨[], rfl⟩, ⟨[], by simp⟩, id, .inr ⟨rfl, rfl⟩⟩

theorem Quiet.trans {s t u : State} (h : Quiet s t) (g : Quiet t u) : Quiet s u where
  regs := g.regs.trans h.regs
  cond := g.cond.trans h.cond
  pc := g.pc.trans h.pc
  params := g.params.trans h.params
  words := fun a h1 h2 => (g.words a h1 h2).trans (h.words a h1 h2)
  wf := g.wf ∘ h.wf
  input := by
    obtain ⟨x, hx⟩ := h.input; obtain ⟨y, hy⟩ := g.input
    exact ⟨x ++ y, by rw [hx, hy, List.append_assoc]⟩
  output := by
    obtain ⟨x, hx⟩ := h.output; obtain ⟨y, hy⟩ := g.output
    exact ⟨x ++ y, by rw [hy, hx, List.append_assoc]⟩
  failAfter := g.failAfter ∘ h.failAfter
  polls := h.polls.trans g.polls

theorem GoesOn.refl (s : State) : GoesOn s s := ⟨Quiet.refl s, rfl, rfl⟩

theorem GoesOn.trans {s t u : State} (h : GoesOn s t) (g : GoesOn t u) : GoesOn s u :=
  ⟨h.toQuiet.trans g.toQuiet, g.run.trans h.run, g.held.trans h.held⟩

theorem GoesOn.fails {s t u : State} (h : GoesOn s t) (g : Fails t u) : Fails s u :=
  ⟨h.toQuiet.trans g.toQuiet, g.run, g.held.trans h.held, g.failed⟩

/-- A console that fails was going to fail. -/
theorem Fails.some {s t : State} (h : Fails s t) : ∃ n, s.console.failAfter = some n := by
  cases hs : s.console.failAfter with
  | none => exact absurd (h.failAfter hs) (by simp [h.failed])
  | some n => exact ⟨n, rfl⟩

theorem fails_of_failAfter {s : State} (h : s.console.failAfter = some 0) : Fails s (raiseFatal .ioFailure s) :=
  ⟨⟨rfl, rfl, rfl, rfl, fun _ _ _ => rfl, id, ⟨[], rfl⟩, ⟨[], by simp⟩, id, .inr ⟨rfl, rfl⟩⟩, rfl, rfl, h⟩

/-- A change of the console that only moves on, with no poll, is quiet. -/
theorem goesOn_console (s : State) (c : Console) (hi : ∃ taken, s.console.input = taken ++ c.input)
    (ho : ∃ written, c.output = s.console.output ++ written) (hf : s.console.failAfter = none → c.failAfter = none)
    (hp : c.polls = s.console.polls) : GoesOn s { s with console := c } :=
  ⟨⟨rfl, rfl, rfl, rfl, fun _ _ _ => rfl, id, hi, ho, hf, .inr ⟨hp, rfl⟩⟩, rfl, rfl⟩

theorem after_failAfter_none {n : Nat} {c : Console} (h : c.failAfter = none) : (c.after n).failAfter = none := by
  simp [Console.after, h]

/-! ### The operations -/

/-- A result whose `done` goes on and whose `stopped` fails. -/
def Result.Plain {α : Type} (s : State) (r : Result α) : Prop :=
  (∃ a t, r = .done a t ∧ GoesOn s t) ∨ (∃ t, r = .stopped t ∧ Fails s t)

theorem Result.Plain.andThen {α β : Type} {s : State} {r : Result α} {k : α → State → Result β}
    (h : r.Plain s) (hk : ∀ a t, r = .done a t → (k a t).Plain t) : (r.andThen k).Plain s := by
  rcases h with ⟨a, t, rfl, ht⟩ | ⟨t, rfl, ht⟩
  · rcases hk a t rfl with ⟨b, u, hu, hg⟩ | ⟨u, hu, hg⟩
    · exact .inl ⟨b, u, hu, ht.trans hg⟩
    · exact .inr ⟨u, hu, ht.fails hg⟩
  · exact .inr ⟨t, rfl, ht⟩

theorem plain_done {α : Type} (a : α) (s : State) : (Result.done a s).Plain s := .inl ⟨a, s, rfl, GoesOn.refl s⟩

theorem consoleWrite_plain (ch : Byte) (s : State) : (consoleWrite ch s).Plain s := by
  rcases consoleWrite_cases ch s with ⟨h, e⟩ | ⟨-, e⟩
  · exact .inr ⟨_, e, fails_of_failAfter h⟩
  · exact .inl ⟨_, _, e, goesOn_console s _ ⟨[], rfl⟩ ⟨[ch], rfl⟩ after_failAfter_none rfl⟩

theorem consoleFlush_plain (s : State) : (consoleFlush s).Plain s := by
  rcases consoleFlush_cases s with ⟨h, e⟩ | ⟨-, e⟩
  · exact .inr ⟨_, e, fails_of_failAfter h⟩
  · exact .inl ⟨_, _, e, goesOn_console s _ ⟨[], rfl⟩ ⟨[], by simp⟩ after_failAfter_none rfl⟩

theorem consoleWriteAll_plain (chars : List Byte) (s : State) : (consoleWriteAll chars s).Plain s := by
  induction chars generalizing s with
  | nil => exact plain_done () s
  | cons ch rest ih => exact (consoleWrite_plain ch s).andThen fun _ t _ => ih t

theorem pollTook_goesOn {ch : Byte} {rest : List Byte} {s : State} (hi : s.console.input = ch :: rest) :
    GoesOn s (pollTook ch rest s) where
  regs := rfl
  cond := rfl
  pc := rfl
  params := rfl
  words := fun _ h1 h2 => pollTook_word ch rest s h1 h2
  wf := fun h => memWrite_wf _ _ (memWrite_wf kbsr _ h)
  input := ⟨[ch], hi⟩
  output := ⟨[], by simp [pollTook, withConsole, Console.polled, Console.after]⟩
  failAfter := after_failAfter_none (n := 2)
  polls := .inl (Nat.lt_succ_self _)
  run := rfl
  held := rfl

theorem pollIdle_goesOn (s : State) : GoesOn s (pollIdle s) where
  regs := rfl
  cond := rfl
  pc := rfl
  params := rfl
  words := fun _ h _ => pollIdle_word s h
  wf := memWrite_wf kbsr _
  input := ⟨[], rfl⟩
  output := ⟨[], by simp [pollIdle, withConsole, Console.polled, Console.after]⟩
  failAfter := after_failAfter_none (n := 1)
  polls := .inl (Nat.lt_succ_self _)
  run := rfl
  held := rfl

theorem pollReadFailed_fails {s : State} (h : s.console.failAfter = some 1) : Fails s (pollReadFailed s) where
  regs := rfl
  cond := rfl
  pc := rfl
  params := rfl
  words := fun _ h _ => pollReadFailed_word s h
  wf := memWrite_wf kbsr _
  input := ⟨[], rfl⟩
  output := ⟨[], by simp [pollReadFailed, withConsole, Console.polled, Console.after, raiseFatal]⟩
  failAfter := after_failAfter_none (n := 1)
  polls := .inl (Nat.lt_succ_self _)
  run := rfl
  held := rfl
  failed := by simp [pollReadFailed, raiseFatal, withConsole, Console.polled, Console.after, h]

theorem keyboardPoll_plain (s : State) : (keyboardPoll s).Plain s := by
  rcases keyboardPoll_cases s with ⟨h, e⟩ | ⟨-, -, ch, rest, hi, e⟩ | ⟨h, -, e⟩ | ⟨-, -, e⟩
  · exact .inr ⟨_, e, fails_of_failAfter h⟩
  · exact .inl ⟨_, _, e, pollTook_goesOn hi⟩
  · exact .inr ⟨_, e, pollReadFailed_fails h⟩
  · exact .inl ⟨_, _, e, pollIdle_goesOn s⟩

/-- Everything a read can do to the state (R51, R52): it goes on, or the console fails during the poll of KBSR. -/
theorem memRead_plain (a : Word) (s : State) : (memRead a s).Plain s := by
  by_cases h : a = kbsr
  · subst h
    rw [memRead_kbsr]
    exact (keyboardPoll_plain s).andThen fun _ t _ => plain_done _ t
  · rw [memRead_ordinary s h]
    exact plain_done _ s

/-- Only a read of KBSR can stop the step. -/
theorem memRead_stopped {a : Word} {s t : State} (h : memRead a s = .stopped t) : a = kbsr ∧ Fails s t := by
  constructor
  · by_contra hk
    rw [memRead_ordinary s hk] at h
    cases h
  · rcases memRead_plain a s with ⟨_, _, e, _⟩ | ⟨u, e, hf⟩
    · rw [e] at h; cases h
    · rw [e] at h; cases h; exact hf

theorem memRead_done {a : Word} {s t : State} {v : Word} (h : memRead a s = .done v t) : GoesOn s t := by
  rcases memRead_plain a s with ⟨_, _, e, hg⟩ | ⟨u, e, _⟩
  · rw [e] at h; cases h; exact hg
  · rw [e] at h; cases h

/-! ### Steps that may be held -/

/-- What a step does that reads characters or strings: it completes, it fails, or it is held. R0 may be written when
it completes. -/
structure ServiceEnds (s t : State) : Prop where
  others : SameRegsBut .r0 s t
  cond : t.cond = s.cond
  pc : t.pc = s.pc
  params : t.params = s.params
  words : ∀ a : Word, a ≠ kbsr → a ≠ kbdr → t.word a = s.word a
  wf : Memory.wf s.mem = true → Memory.wf t.mem = true
  input : ∃ taken, s.console.input = taken ++ t.console.input
  output : ∃ written, t.console.output = s.console.output ++ written
  polls : MemoryByPolls s t
  ends : (t.run = s.run ∧ (t.held = s.held ∨ t.regs = s.regs ∧ t.held ≠ none)) ∨
    (t.regs = s.regs ∧ t.run = .faulted .ioFailure ∧ t.held = s.held ∧ t.console.failAfter = some 0 ∧
      ∃ n, s.console.failAfter = some n)

theorem reg_of_regs {s t : State} (h : t.regs = s.regs) : SameRegs s t := fun q => by simp [State.reg, h]

theorem ServiceEnds.of_goesOn {s t : State} (h : GoesOn s t) : ServiceEnds s t :=
  ⟨fun q _ => reg_of_regs h.regs q, h.cond, h.pc, h.params, h.words, h.wf, h.input, h.output, h.polls,
    .inl ⟨h.run, .inl h.held⟩⟩

theorem ServiceEnds.of_fails {s t : State} (h : Fails s t) : ServiceEnds s t :=
  ⟨fun q _ => reg_of_regs h.regs q, h.cond, h.pc, h.params, h.words, h.wf, h.input, h.output, h.polls,
    .inr ⟨h.regs, h.run, h.held, h.failed, h.some⟩⟩

theorem ServiceEnds.of_plain {α : Type} {s : State} {r : Result α} (h : r.Plain s) : ServiceEnds s r.state := by
  rcases h with ⟨_, _, rfl, hg⟩ | ⟨_, rfl, hf⟩
  · exact .of_goesOn hg
  · exact .of_fails hf

/-- A held step: what it did before goes on, and then it is held. -/
theorem ServiceEnds.of_hold {s t : State} (h : Held) (hg : GoesOn s t) : ServiceEnds s (holdAt h t) :=
  ⟨fun q _ => reg_of_regs hg.regs q, hg.cond, hg.pc, hg.params, hg.words, hg.wf, hg.input, hg.output, hg.polls,
    .inl ⟨hg.run, .inr ⟨hg.regs, by simp⟩⟩⟩

theorem ServiceEnds.of_write {s t : State} (v : Word) (hg : GoesOn s t) : ServiceEnds s (writeReg .r0 v t) :=
  ⟨fun q hq => (writeReg_reg_ne v t hq).trans (reg_of_regs hg.regs q), hg.cond, hg.pc, hg.params, hg.words, hg.wf,
    hg.input, hg.output, hg.polls, .inl ⟨hg.run, .inl hg.held⟩⟩

theorem ServiceEnds.after_goesOn {s t u : State} (hg : GoesOn s t) (h : ServiceEnds t u) : ServiceEnds s u where
  others := fun q hq => (h.others q hq).trans (reg_of_regs hg.regs q)
  cond := h.cond.trans hg.cond
  pc := h.pc.trans hg.pc
  params := h.params.trans hg.params
  words := fun a h1 h2 => (h.words a h1 h2).trans (hg.words a h1 h2)
  wf := h.wf ∘ hg.wf
  input := by
    obtain ⟨x, hx⟩ := hg.input; obtain ⟨y, hy⟩ := h.input
    exact ⟨x ++ y, by rw [hx, hy, List.append_assoc]⟩
  output := by
    obtain ⟨x, hx⟩ := hg.output; obtain ⟨y, hy⟩ := h.output
    exact ⟨x ++ y, by rw [hy, hx, List.append_assoc]⟩
  polls := hg.polls.trans h.polls
  ends := by
    rcases h.ends with ⟨hr, hh | ⟨hregs, hh⟩⟩ | ⟨hregs, hr, hh, hf, n, hn⟩
    · exact .inl ⟨hr.trans hg.run, .inl (hh.trans hg.held)⟩
    · exact .inl ⟨hr.trans hg.run, .inr ⟨hregs.trans hg.regs, hh⟩⟩
    · refine .inr ⟨hregs.trans hg.regs, hr, hh.trans hg.held, hf, ?_⟩
      cases hs : s.console.failAfter with
      | none => exact absurd (hg.failAfter hs) (by simp [hn])
      | some m => exact ⟨m, rfl⟩

/-- The read of GETC and IN: it fails, it is held, or it takes the oldest unread character. -/
theorem consoleRead_goesOn {s t : State} {waiting : State → State} {ch : Byte}
    (h : consoleRead waiting s = .done ch t) : GoesOn s t := by
  rcases consoleRead_cases waiting s with ⟨-, e⟩ | ⟨-, -, e⟩ | ⟨-, c, rest, hi, e⟩
  · rw [e] at h; cases h
  · rw [e] at h; cases h
  · rw [e] at h
    cases h
    exact goesOn_console s _ ⟨[ch], hi⟩ ⟨[], by simp⟩ after_failAfter_none rfl

theorem getcRead_ends (s : State) : ServiceEnds s (getcRead s) := by
  unfold getcRead
  rcases consoleRead_cases (holdAt .getcRead) s with ⟨h, e⟩ | ⟨-, -, e⟩ | ⟨-, c, rest, hi, e⟩
  · rw [e]; exact .of_fails (fails_of_failAfter h)
  · rw [e]; exact .of_hold _ (GoesOn.refl s)
  · rw [e]; exact .of_write _ (consoleRead_goesOn e)

theorem inRead_ends (s : State) : ServiceEnds s (inRead s) := by
  unfold inRead
  rcases consoleRead_cases (holdAt .inRead) s with ⟨h, e⟩ | ⟨-, -, e⟩ | ⟨-, c, rest, hi, e⟩
  · rw [e]; exact .of_fails (fails_of_failAfter h)
  · rw [e]; exact .of_hold _ (GoesOn.refl s)
  · have hg := consoleRead_goesOn e
    have hk : ((consoleWrite c { s with console := { s.console.after 1 with input := rest } }).andThen fun _ s2 =>
        (consoleFlush s2).andThen fun _ s3 => Result.done c s3).Plain _ :=
      (consoleWrite_plain c _).andThen fun _ t _ => (consoleFlush_plain t).andThen fun _ u _ => plain_done c u
    rw [e, andThen_done]
    rcases hk with ⟨b, t, ht, hgo⟩ | ⟨t, ht, hf⟩
    · rw [ht]; exact .of_write _ (hg.trans hgo)
    · rw [ht]; exact .of_fails (hg.fails hf)

/-- Everything the string loop can do in `n` words, whatever `atEnd` is: it completes or fails, or it is on its way
after all of them, and `atEnd` decides. -/
theorem stringLoop_cases (chars : Word → List Byte) (n : Nat) (p : Word) (s : State) :
    (∃ r : Result Unit, r.Plain s ∧ ∀ atEnd, stringLoop chars atEnd n p s = r) ∨
    ∃ t, GoesOn s t ∧ StringReaches chars p s (p + BitVec.ofNat 16 n) t ∧
      ∀ atEnd, stringLoop chars atEnd n p s = atEnd (p + BitVec.ofNat 16 n) t := by
  induction n generalizing p s with
  | zero => exact .inr ⟨s, GoesOn.refl s, by simpa using .here p s, fun atEnd => by simp [stringLoop]⟩
  | succ n ih =>
    rcases memRead_plain p s with ⟨w, s1, e, hg⟩ | ⟨t, e, hf⟩
    · by_cases hw : w = 0
      · refine .inl ⟨consoleFlush s1, ?_, fun atEnd => by rw [stringLoop, e, andThen_done, if_pos hw]⟩
        rcases consoleFlush_plain s1 with ⟨a, t, e', hg'⟩ | ⟨t, e', hf'⟩
        · exact .inl ⟨a, t, e', hg.trans hg'⟩
        · exact .inr ⟨t, e', hg.fails hf'⟩
      · rcases consoleWriteAll_plain (chars w) s1 with ⟨a, s2, e', hg'⟩ | ⟨t, e', hf'⟩
        · have hs : ∀ atEnd, stringLoop chars atEnd (n + 1) p s = stringLoop chars atEnd n (p + 1) s2 := fun atEnd => by
            rw [stringLoop, e, andThen_done, if_neg hw, e', andThen_done]
          have hgo := hg.trans hg'
          rcases ih (p + 1) s2 with ⟨r, hr, hl⟩ | ⟨t, ht, hreach, hl⟩
          · refine .inl ⟨r, ?_, fun atEnd => (hs atEnd).trans (hl atEnd)⟩
            rcases hr with ⟨b, t, rfl, h2⟩ | ⟨t, rfl, h2⟩
            · exact .inl ⟨b, t, rfl, hgo.trans h2⟩
            · exact .inr ⟨t, rfl, hgo.fails h2⟩
          · have hq : p + 1 + BitVec.ofNat 16 n = p + BitVec.ofNat 16 (n + 1) := by
              rw [BitVec.add_assoc, ← BitVec.ofNat_add_ofNat, BitVec.add_comm (BitVec.ofNat 16 n)]
              rfl
            rw [hq] at hreach hl
            exact .inr ⟨t, hgo.trans ht, .word e hw e' hreach, fun atEnd => (hs atEnd).trans (hl atEnd)⟩
        · exact .inl ⟨.stopped t, .inr ⟨t, rfl, hg.fails hf'⟩, fun atEnd => by
            rw [stringLoop, e, andThen_done, if_neg hw, e']; rfl⟩
    · exact .inl ⟨.stopped t, .inr ⟨t, rfl, hf⟩, fun atEnd => by rw [stringLoop, e]; rfl⟩

/-- A string service completes, fails, or is held where it stands. -/
theorem stringService_ends (chars : Word → List Byte) (resumeAt : Word → Held) (p : Word) (s : State) :
    (stringService chars resumeAt p s).Plain s ∨
    ∃ q t, GoesOn s t ∧ stringService chars resumeAt p s = .stopped (holdAt (resumeAt q) t) := by
  unfold stringService
  rcases stringLoop_cases chars 65536 p s with ⟨r, hr, hl⟩ | ⟨t, ht, -, hl⟩
  · rw [hl]; exact .inl hr
  · rw [hl]
    rcases stringLoop_cases chars (stringBound t.console) (p + BitVec.ofNat 16 65536) t with
      ⟨r, hr, hl2⟩ | ⟨u, hu, -, hl2⟩
    · rw [hl2]
      rcases hr with ⟨b, v, rfl, h2⟩ | ⟨v, rfl, h2⟩
      · exact .inl (.inl ⟨b, v, rfl, ht.trans h2⟩)
      · exact .inl (.inr ⟨v, rfl, ht.fails h2⟩)
    · rw [hl2]; exact .inr ⟨_, u, ht.trans hu, rfl⟩

theorem stringService_state_ends (chars : Word → List Byte) (resumeAt : Word → Held) (p : Word) (s : State) :
    ServiceEnds s (stringService chars resumeAt p s).state ∧ (stringService chars resumeAt p s).state.regs = s.regs := by
  rcases stringService_ends chars resumeAt p s with (⟨b, t, e, hg⟩ | ⟨t, e, hf⟩) | ⟨q, t, hg, e⟩
  · rw [e]; exact ⟨.of_goesOn hg, hg.regs⟩
  · rw [e]; exact ⟨.of_fails hf, hf.regs⟩
  · rw [e]; exact ⟨.of_hold _ hg, hg.regs⟩

end Sys2Proof.Machine
end

