-- ==== Sys2Proof/Laws/PerInstr.lean ====
section
/-! SUPPORT. Facts about every instruction as syntax, one lemma per constructor. -/

namespace Sys2Proof.Laws.OpcodeClass

/-- The opcode class of an instruction (R86). -/
def classOf : Instr → Opcode
  | .br _ _ _ _ => .br
  | .addReg _ _ _ => .add
  | .addImm _ _ _ => .add
  | .ld _ _ => .ld
  | .st _ _ => .st
  | .jsr _ => .jsr
  | .jsrr _ => .jsr
  | .andReg _ _ _ => .and
  | .andImm _ _ _ => .and
  | .ldr _ _ _ => .ldr
  | .str _ _ _ => .str
  | .rti => .rti
  | .notReg _ _ => .not
  | .ldi _ _ => .ldi
  | .sti _ _ => .sti
  | .jmp _ => .jmp
  | .ret => .jmp
  | .res => .res
  | .lea _ _ => .lea
  | .getc => .trap
  | .out => .trap
  | .puts => .trap
  | .inTrap => .trap
  | .putsp => .trap
  | .halt => .trap
  | .trapUndefined _ => .trap

/-- The top 4 bits of an instruction's word select its class (R81, R86). -/
def Statement (i : Instr) : Prop := opcodeOf (encode i) = classOf i

theorem top4 {m : Nat} (b : BitVec 4) (y : BitVec m) {lo : Nat} (h : lo = m) :
    (b ++ y).extractLsb' lo 4 = b := by
  subst h
  rw [extract_high _ _ (Nat.le_refl _), Nat.sub_self, extract_all]

theorem br (n z p : Bool) (off : BitVec 9) : Statement (.br n z p off) := by
  refine opcodeOf_of_field (b := 0) ?_
  change BitVec.extractLsb' 12 4 (0b0000#4 ++ bit n ++ bit z ++ bit p ++ off) = _
  rw [extract_high _ _ (by omega), extract_high _ _ (by omega), extract_high _ _ (by omega)]
  exact top4 _ _ rfl

theorem addReg (dr sr1 sr2 : Reg) : Statement (.addReg dr sr1 sr2) := by
  cases dr <;> cases sr1 <;> cases sr2 <;> rfl

theorem addImm (dr sr1 : Reg) (imm : BitVec 5) : Statement (.addImm dr sr1 imm) := by
  refine opcodeOf_of_field (b := 1) ?_
  change BitVec.extractLsb' 12 4 (0b0001#4 ++ dr.bits ++ sr1.bits ++ 0b1#1 ++ imm) = _
  rw [extract_high _ _ (by omega), extract_high _ _ (by omega), extract_high _ _ (by omega)]
  exact top4 _ _ rfl

theorem andReg (dr sr1 sr2 : Reg) : Statement (.andReg dr sr1 sr2) := by
  cases dr <;> cases sr1 <;> cases sr2 <;> rfl

theorem andImm (dr sr1 : Reg) (imm : BitVec 5) : Statement (.andImm dr sr1 imm) := by
  refine opcodeOf_of_field (b := 5) ?_
  change BitVec.extractLsb' 12 4 (0b0101#4 ++ dr.bits ++ sr1.bits ++ 0b1#1 ++ imm) = _
  rw [extract_high _ _ (by omega), extract_high _ _ (by omega), extract_high _ _ (by omega)]
  exact top4 _ _ rfl

/-- The words made of an opcode, a register and a 9-bit offset. -/
theorem regOff9 (b : BitVec 4) (r : Reg) (off : BitVec 9) :
    BitVec.extractLsb' 12 4 (b ++ r.bits ++ off) = b := by
  rw [extract_high _ _ (by omega)]
  exact top4 _ _ rfl

theorem ld (dr : Reg) (off : BitVec 9) : Statement (.ld dr off) := opcodeOf_of_field (regOff9 2 dr off)
theorem ldi (dr : Reg) (off : BitVec 9) : Statement (.ldi dr off) := opcodeOf_of_field (regOff9 10 dr off)
theorem lea (dr : Reg) (off : BitVec 9) : Statement (.lea dr off) := opcodeOf_of_field (regOff9 14 dr off)
theorem st (sr : Reg) (off : BitVec 9) : Statement (.st sr off) := opcodeOf_of_field (regOff9 3 sr off)
theorem sti (sr : Reg) (off : BitVec 9) : Statement (.sti sr off) := opcodeOf_of_field (regOff9 11 sr off)

/-- The words made of an opcode, two registers and a 6-bit field. -/
theorem twoRegs6 (b : BitVec 4) (r q : Reg) (off : BitVec 6) :
    BitVec.extractLsb' 12 4 (b ++ r.bits ++ q.bits ++ off) = b := by
  rw [extract_high _ _ (by omega), extract_high _ _ (by omega)]
  exact top4 _ _ rfl

theorem ldr (dr base : Reg) (off : BitVec 6) : Statement (.ldr dr base off) :=
  opcodeOf_of_field (twoRegs6 6 dr base off)
theorem str (sr base : Reg) (off : BitVec 6) : Statement (.str sr base off) :=
  opcodeOf_of_field (twoRegs6 7 sr base off)
theorem notReg (dr sr : Reg) : Statement (.notReg dr sr) := opcodeOf_of_field (twoRegs6 9 dr sr 0b111111#6)

theorem jsr (off : BitVec 11) : Statement (.jsr off) := by
  refine opcodeOf_of_field (b := 4) ?_
  change BitVec.extractLsb' 12 4 (0b0100#4 ++ 0b1#1 ++ off) = _
  rw [extract_high _ _ (by omega)]
  exact top4 _ _ rfl

theorem jsrr (base : Reg) : Statement (.jsrr base) := by cases base <;> rfl
theorem jmp (base : Reg) : Statement (.jmp base) := by cases base <;> rfl
theorem ret : Statement .ret := rfl
theorem rti : Statement .rti := rfl
theorem res : Statement .res := rfl
theorem getc : Statement .getc := rfl
theorem out : Statement .out := rfl
theorem puts : Statement .puts := rfl
theorem inTrap : Statement .inTrap := rfl
theorem putsp : Statement .putsp := rfl
theorem halt : Statement .halt := rfl

theorem trapUndefined (vector : BitVec 8) : Statement (.trapUndefined vector) := by
  refine opcodeOf_of_field (b := 15) ?_
  change BitVec.extractLsb' 12 4 (0b1111#4 ++ 0b0000#4 ++ vector) = _
  rw [extract_high _ _ (by omega)]
  exact top4 _ _ rfl

end Sys2Proof.Laws.OpcodeClass
end

