-- ==== Sys2Proof/Laws/Step.lean ====
section
/-! SUPPORT. What the meanings and the step can do: the frames of the shared writes, what every trap service and every
held step ends in, and the step in terms of the fetch. -/

namespace Sys2Proof.Machine

/-! ### Frames of the shared writes -/

theorem writeRegCC_wrote (dr : Reg) (v : Word) (s : State) : WroteRegCC dr v s (writeRegCC dr v s) :=
  ⟨regFile_get_set_same _ _ _, rfl, fun _ h => regFile_get_set_ne _ _ h, rfl, fun _ => rfl, rfl, rfl, rfl, rfl⟩

theorem memWrite_wrote (a v : Word) (s : State) : WroteWord a v s (memWrite a v s) :=
  ⟨memWrite_word_same _ _ _, fun _ h => memWrite_word_ne _ _ h, fun _ => rfl, rfl, rfl, rfl, rfl, rfl, rfl⟩

theorem stoppedByIo_of_fails {s t : State} (h : Fails s t) : StoppedByIo s t :=
  ⟨h.run, reg_of_regs h.regs, h.cond, h.pc, h.held, h.params⟩

/-- A load whose read goes on: the register, the flags, and what the read did. -/
theorem loadInto_done {dr : Reg} {a v : Word} {s s1 : State} (h : memRead a s = .done v s1) :
    loadInto dr a s = writeRegCC dr v s1 ∧ GoesOn s s1 := by
  exact ⟨by simp [loadInto, h], memRead_done h⟩

/-- A load whose read stops the step. -/
theorem loadInto_stopped {dr : Reg} {a : Word} {s s1 : State} (h : memRead a s = .stopped s1) :
    loadInto dr a s = s1 ∧ Fails s s1 := by
  exact ⟨by simp [loadInto, h], (memRead_stopped h).2⟩

/-! ### Branches -/

/-- BR's test on the three-valued register (R120). -/
theorem branchTaken_iff (n z p : Bool) (c : Cond) :
    branchTaken n z p c = true ↔
      (n = true ∧ c = .negative) ∨ (z = true ∧ c = .zero) ∨ (p = true ∧ c = .positive) := by
  cases c <;> revert n z p <;> decide

/-! ### Services and held steps -/

theorem out_ends (s : State) :
    ServiceEnds s ((consoleWrite (lowByte (s.reg .r0)) s).andThen fun _ s1 => consoleFlush s1).state :=
  .of_plain ((consoleWrite_plain _ s).andThen fun _ t _ => consoleFlush_plain t)

theorem inTrap_ends (s : State) :
    ServiceEnds s (((consoleWriteAll s.params.inPrompt s).andThen fun _ s1 => consoleFlush s1).finish
      fun _ s2 => inRead s2) := by
  have h : ((consoleWriteAll s.params.inPrompt s).andThen fun _ s1 => consoleFlush s1).Plain s :=
    (consoleWriteAll_plain _ s).andThen fun _ t _ => consoleFlush_plain t
  rcases h with ⟨_, t, e, hg⟩ | ⟨t, e, hf⟩
  · rw [e]; exact (inRead_ends t).after_goesOn hg
  · rw [e]; exact .of_fails hf

theorem putsFrom_ends (p : Word) (s : State) : ServiceEnds s (putsFrom p s) ∧ (putsFrom p s).regs = s.regs :=
  stringService_state_ends _ _ _ _

theorem putspFrom_ends (p : Word) (s : State) : ServiceEnds s (putspFrom p s) ∧ (putspFrom p s).regs = s.regs :=
  stringService_state_ends _ _ _ _

/-- What any held step does when it goes on, from the state in which nothing is held. -/
theorem resumeHeld_ends (h : Held) (s : State) : ServiceEnds { s with held := none } (resumeHeld h s) := by
  cases h with
  | getcRead => exact getcRead_ends _
  | inRead => exact inRead_ends _
  | putsAt p => exact (putsFrom_ends p _).1
  | putspAt p => exact (putspFrom_ends p _).1

/-! ### The step -/

theorem step_stopped {s : State} (h : s.run ≠ .running) : step s = .next s := by
  unfold step
  cases hr : s.run with
  | running => exact absurd hr h
  | halted => rfl
  | faulted c => rfl

theorem step_held {s : State} {h : Held} (hr : s.run = .running) (hh : s.held = some h) :
    step s = .next (resumeHeld h s) := by
  simp [step, hr, hh]

theorem step_fetches {s : State} (hr : s.run = .running) (hh : s.held = none) : step s = fetchAndRun s := by
  simp [step, hr, hh]

theorem fetchAndRun_done {s s1 : State} {ir : Word} (h : fetch s = .done ir s1) :
    fetchAndRun s = exec (decode ir) s1 := by
  simp [fetchAndRun, h]

theorem fetchAndRun_stopped {s s1 : State} (h : fetch s = .stopped s1) : fetchAndRun s = .next s1 := by
  simp [fetchAndRun, h]

/-- The fetch either reads a word, and what follows begins in a state past the instruction, or the console fails. -/
theorem fetch_cases (s : State) :
    (∃ ir s1, fetch s = .done ir s1 ∧ GoesOn (pcPast s) s1) ∨ (∃ s1, fetch s = .stopped s1 ∧ Fails (pcPast s) s1) :=
  memRead_plain s.pc (pcPast s)

/-- Everything a step can be, guards included: a stopped core stays; a held step goes on; the fetch fails; or an
instruction runs from where the fetch left the state. -/
theorem step_cases {s t : State} (h : step s = .next t) :
    (s.run ≠ .running ∧ t = s) ∨
    (s.run = .running ∧ ∃ q, s.held = some q ∧ t = resumeHeld q s) ∨
    (s.run = .running ∧ s.held = none ∧ Fails (pcPast s) t) ∨
    (s.run = .running ∧ s.held = none ∧
      ∃ ir s1, fetch s = .done ir s1 ∧ GoesOn (pcPast s) s1 ∧ exec (decode ir) s1 = .next t) := by
  by_cases hr : s.run = .running
  · cases hh : s.held with
    | some q => rw [step_held hr hh] at h; cases h; exact .inr (.inl ⟨hr, q, rfl, rfl⟩)
    | none =>
      rw [step_fetches hr hh] at h
      rcases fetch_cases s with ⟨ir, s1, h', hg⟩ | ⟨s1, h', hf⟩
      · rw [fetchAndRun_done h'] at h
        exact .inr (.inr (.inr ⟨hr, rfl, ir, s1, h', hg, h⟩))
      · rw [fetchAndRun_stopped h'] at h
        cases h
        exact .inr (.inr (.inl ⟨hr, rfl, hf⟩))
  · rw [step_stopped hr] at h
    cases h
    exact .inl ⟨hr, rfl⟩

end Sys2Proof.Machine
end

