-- ==== Sys2Proof/Laws/Strings.lean ====
section
/-! SUPPORT. The loop of the string services word by word: how many polls can still find a key, what reading and
writing one word does, and that a long enough way through memory uses up every key that can be found. -/

namespace Sys2Proof.Machine

/-! ### Polls that can still find a key -/

/-- No poll finds a key any more, unless a character arrives. -/
def Console.Settled (c : Console) : Prop :=
  c.input = [] ∨ (c.keyReady = [] ∧ Config.pollsBeforeKey c.keysFound = none)

/-- A number of polls after which the console is settled. -/
def Console.pollsLeft (c : Console) : Nat :=
  match c.input with
  | [] => 0
  | _ :: rest => c.keyReady.length +
    match Config.pollsBeforeKey c.keysFound with
    | none => 0
    | some n => (n - c.idlePolls) + 1 + pollsToFind (c.keysFound + 1) rest.length

/-- Two consoles whose polls will answer the same. -/
structure SamePolls (c d : Console) : Prop where
  input : d.input = c.input
  keyReady : d.keyReady = c.keyReady
  keysFound : d.keysFound = c.keysFound
  idlePolls : d.idlePolls = c.idlePolls

theorem SamePolls.settled {c d : Console} (h : SamePolls c d) (hs : c.Settled) : d.Settled := by
  unfold Console.Settled
  rw [h.input, h.keyReady, h.keysFound]
  exact hs

theorem SamePolls.pollsLeft {c d : Console} (h : SamePolls c d) : d.pollsLeft = c.pollsLeft := by
  unfold Console.pollsLeft
  rw [h.input, h.keyReady, h.keysFound, h.idlePolls]

theorem SamePolls.trans {c d e : Console} (h : SamePolls c d) (g : SamePolls d e) : SamePolls c e :=
  ⟨g.input.trans h.input, g.keyReady.trans h.keyReady, g.keysFound.trans h.keysFound, g.idlePolls.trans h.idlePolls⟩

theorem pollsToFind_mono (found n : Nat) : pollsToFind found n ≤ pollsToFind found (n + 1) := by
  induction n generalizing found with
  | zero => simp [pollsToFind]
  | succ n ih =>
    have := ih (found + 1)
    simp only [pollsToFind] at this ⊢
    omega

theorem pollsLeft_le_pollsToSettle (c : Console) : c.pollsLeft ≤ c.pollsToSettle := by
  unfold Console.pollsLeft Console.pollsToSettle
  cases c.input with
  | nil => simp
  | cons ch rest =>
    simp only [List.length_cons, pollsToFind]
    cases Config.pollsBeforeKey c.keysFound with
    | none => simp
    | some n => simp only [Option.getD_some]; omega

theorem settled_findsKey {c : Console} (h : c.Settled) : c.findsKey = false := by
  unfold Console.findsKey
  rcases h with h | ⟨h1, h2⟩
  · rw [h]
  · split
    · rfl
    · rw [h1]; simp [Console.freeAnswer, h2]

theorem settled_polled {c : Console} (h : c.Settled) : c.polled.Settled := by
  rcases h with h | ⟨h1, h2⟩
  · exact .inl h
  · exact .inr ⟨by simp [Console.polled, h1], by simp [Console.polled, Console.freeAnswer, h2]⟩

/-- A poll that finds a key and takes its character settles the console or leaves fewer polls. -/
theorem polled_found {c : Console} {ch : Byte} {rest : List Byte} (hi : c.input = ch :: rest) (hf : c.findsKey = true) :
    Console.Settled { c.polled with input := rest } ∨
      Console.pollsLeft { c.polled with input := rest } < c.pollsLeft := by
  cases rest with
  | nil => exact .inl (.inl rfl)
  | cons d rest =>
    right
    cases hk : c.keyReady with
    | nil =>
      have hfa : c.freeAnswer = true := by simpa [Console.findsKey, hi, hk] using hf
      simp only [Console.pollsLeft, hi, hk, Console.polled, Console.answersFreely, hfa]
      unfold Console.freeAnswer at hfa
      cases hg : Config.pollsBeforeKey c.keysFound with
      | none => simp [hg] at hfa
      | some n =>
        rw [List.length_cons, pollsToFind]
        cases hg' : Config.pollsBeforeKey (c.keysFound + 1) <;> simp [hg']
    | cons b l =>
      have := pollsToFind_mono (c.keysFound + 1) rest.length
      simp only [Console.pollsLeft, hi, hk, Console.polled, Console.answersFreely, List.length_cons]
      cases hg : Config.pollsBeforeKey c.keysFound with
      | none => simp [hg]
      | some n =>
        simp only [List.isEmpty_cons, List.tail_cons, Bool.false_and, Bool.false_eq_true, if_false, hg]
        show l.length + (n - c.idlePolls + 1 + pollsToFind (c.keysFound + 1) rest.length) <
          l.length + 1 + (n - c.idlePolls + 1 + pollsToFind (c.keysFound + 1) (rest.length + 1))
        omega

/-- A poll that finds no key settles the console or leaves fewer polls. -/
theorem polled_idle {c : Console} (hf : c.findsKey = false) : c.polled.Settled ∨ c.polled.pollsLeft < c.pollsLeft := by
  cases hi : c.input with
  | nil => exact .inl (.inl hi)
  | cons ch rest =>
    cases hk : c.keyReady with
    | nil =>
      have hfa : c.freeAnswer = false := by simpa [Console.findsKey, hi, hk] using hf
      cases hg : Config.pollsBeforeKey c.keysFound with
      | none => exact .inl (settled_polled (.inr ⟨hk, hg⟩))
      | some n =>
        right
        simp only [Console.pollsLeft, hi, hk, Console.polled, Console.answersFreely, hfa, hg]
        have : c.idlePolls < n := by simpa [Console.freeAnswer, hg] using hfa
        simp [hg]
        omega
    | cons b l =>
      right
      simp [Console.pollsLeft, hi, hk, Console.polled, Console.answersFreely]

/-! ### One word of the loop -/

/-- The loop reads a nonzero word at `p` and writes all its characters. -/
def ReadsWord (chars : Word → List Byte) (p : Word) (s t : State) : Prop :=
  ∃ w s1, memRead p s = .done w s1 ∧ w ≠ 0 ∧ consoleWriteAll (chars w) s1 = .done () t

/-- The loop reads and writes `n` nonzero words from `p` on. -/
def ReadsWords (chars : Word → List Byte) : Nat → Word → State → State → Prop
  | 0, _, s, t => s = t
  | n + 1, p, s, t => ∃ u, ReadsWord chars p s u ∧ ReadsWords chars n (p + 1) u t

/-- What writing characters changes: the output, and the operations left before a failure. -/
theorem consoleWriteAll_done {chars : List Byte} {s t : State} (h : consoleWriteAll chars s = .done () t) :
    SamePolls s.console t.console ∧ t.mem = s.mem ∧ t.params = s.params ∧
    t.console.failAfter = s.console.failAfter.map (· - chars.length) ∧ Answers chars.length s.console := by
  induction chars generalizing s with
  | nil => cases h; exact ⟨⟨rfl, rfl, rfl, rfl⟩, rfl, rfl, by simp, fun _ _ => Nat.zero_le _⟩
  | cons ch rest ih =>
    unfold consoleWriteAll at h
    rcases consoleWrite_cases ch s with ⟨_, e⟩ | ⟨ha, e⟩ <;> rw [e] at h
    · cases h
    · rw [andThen_done] at h
      obtain ⟨hp, hm, hpar, hf, hr⟩ := ih h
      refine ⟨⟨hp.input, hp.keyReady, hp.keysFound, hp.idlePolls⟩, hm, hpar, ?_, fun k hk => ?_⟩
      · rw [hf]
        simp only [List.length_cons, Console.after, Option.map_map]
        congr 1
        funext k
        simp only [Function.comp_apply]
        omega
      · have h1 := ha k hk
        have h2 := hr (k - 1) (by simp [Console.after, hk])
        simp only [List.length_cons]
        omega

/-- A word read off KBSR is the stored one and changes no word, no parameter and no later poll. -/
theorem readsWord_ordinary {chars : Word → List Byte} {p : Word} {s t : State} (hp : p ≠ kbsr)
    (h : ReadsWord chars p s t) :
    SamePolls s.console t.console ∧ t.mem = s.mem ∧ t.params = s.params ∧ s.word p ≠ 0 := by
  obtain ⟨w, s1, h1, hw, h2⟩ := h
  rw [memRead_ordinary s hp] at h1
  cases h1
  obtain ⟨hpolls, hm, hpar, -⟩ := consoleWriteAll_done h2
  exact ⟨hpolls, hm, hpar, hw⟩

/-- A word read at KBSR settles the console or leaves fewer polls. -/
theorem readsWord_kbsr {chars : Word → List Byte} {s t : State} (h : ReadsWord chars kbsr s t) :
    t.console.Settled ∨ t.console.pollsLeft < s.console.pollsLeft := by
  obtain ⟨w, s1, h1, -, h2⟩ := h
  have hpolls := (consoleWriteAll_done h2).1
  have key : ∀ c : Console, SamePolls c s1.console → c.Settled ∨ c.pollsLeft < s.console.pollsLeft →
      t.console.Settled ∨ t.console.pollsLeft < s.console.pollsLeft := by
    intro c hc hd
    have hct := hc.trans hpolls
    exact hd.imp hct.settled fun hl => by rw [hct.pollsLeft]; exact hl
  rcases memRead_kbsr_cases s with ⟨_, e⟩ | ⟨-, hk, ch, rest, hi, e⟩ | ⟨-, -, e⟩ | ⟨-, hk, e⟩ <;> rw [e] at h1 <;>
    cases h1
  · exact key _ ⟨rfl, rfl, rfl, rfl⟩ (polled_found hi hk)
  · exact key _ ⟨rfl, rfl, rfl, rfl⟩ (polled_idle hk)

/-- A word read at KBSR when the console is settled: the poll is idle, and only KBSR may change. -/
theorem readsWord_kbsr_settled {chars : Word → List Byte} {s t : State} (hs : s.console.Settled)
    (h : ReadsWord chars kbsr s t) :
    t.console.Settled ∧ t.params = s.params ∧ (∀ a, a ≠ kbsr → t.word a = s.word a) ∧
    t.word kbsr = statusIdle s.params.pollMode (s.word kbsr) ∧ statusIdle s.params.pollMode (s.word kbsr) ≠ 0 := by
  obtain ⟨w, s1, h1, hw, h2⟩ := h
  obtain ⟨hpolls, hm, hpar, -⟩ := consoleWriteAll_done h2
  have hword : ∀ a, t.word a = s1.word a := fun a => by simp [State.word, hm]
  have hk := settled_findsKey hs
  rcases memRead_kbsr_cases s with ⟨_, e⟩ | ⟨-, hk', -⟩ | ⟨-, hk', -⟩ | ⟨-, -, e⟩
  · rw [e] at h1; cases h1
  · rw [hk] at hk'; cases hk'
  · rw [hk] at hk'; cases hk'
  · rw [e] at h1
    cases h1
    have h0 : SamePolls s.console.polled (pollIdle s).console := ⟨rfl, rfl, rfl, rfl⟩
    have hc := h0.trans hpolls
    exact ⟨hc.settled (settled_polled hs), hpar, fun a ha => (hword a).trans (pollIdle_word s ha),
      (hword kbsr).trans (pollIdle_kbsr s), hw⟩

/-- No word undoes what the polls before it used up. -/
theorem readsWord_polls {chars : Word → List Byte} {p : Word} {s t : State} (h : ReadsWord chars p s t) :
    (s.console.Settled → t.console.Settled) ∧ (t.console.Settled ∨ t.console.pollsLeft ≤ s.console.pollsLeft) := by
  by_cases hp : p = kbsr
  · subst hp
    exact ⟨fun hs => (readsWord_kbsr_settled hs h).1, (readsWord_kbsr h).imp id Nat.le_of_lt⟩
  · have := (readsWord_ordinary hp h).1
    exact ⟨this.settled, .inr this.pollsLeft.le⟩

/-- Every word that writes a character brings a failure nearer. -/
theorem readsWord_failAfter {chars : Word → List Byte} (hch : ∀ w, chars w ≠ []) {p : Word} {s t : State}
    (h : ReadsWord chars p s t) :
    (s.console.failAfter = none → t.console.failAfter = none) ∧
    ∀ k, s.console.failAfter = some k → ∃ j, t.console.failAfter = some j ∧ j < k := by
  obtain ⟨w, s1, h1, -, h2⟩ := h
  obtain ⟨-, -, -, hf, ha⟩ := consoleWriteAll_done h2
  have hlen : 1 ≤ (chars w).length := List.length_pos_iff.mpr (hch w)
  have hread : ∃ n, s1.console.failAfter = s.console.failAfter.map (· - n) := by
    by_cases hp : p = kbsr
    · subst hp
      rcases memRead_kbsr_cases s with ⟨_, e⟩ | ⟨-, -, _, _, -, e⟩ | ⟨-, -, e⟩ | ⟨-, -, e⟩ <;> rw [e] at h1 <;> cases h1
      · exact ⟨2, rfl⟩
      · exact ⟨1, rfl⟩
    · rw [memRead_ordinary s hp] at h1
      cases h1
      exact ⟨0, by simp⟩
  obtain ⟨n, hn⟩ := hread
  refine ⟨fun hs => by rw [hf, hn, hs]; rfl, fun k hk => ⟨k - n - (chars w).length, by rw [hf, hn, hk]; rfl, ?_⟩⟩
  have := ha (k - n) (by rw [hn, hk]; rfl)
  omega

/-! ### Many words of the loop -/

theorem readsWords_split {chars : Word → List Byte} (m n : Nat) {p : Word} {s t : State}
    (h : ReadsWords chars (m + n) p s t) :
    ∃ u, ReadsWords chars m p s u ∧ ReadsWords chars n (p + BitVec.ofNat 16 m) u t := by
  induction m generalizing p s with
  | zero => exact ⟨s, rfl, by simpa using h⟩
  | succ m ih =>
    rw [Nat.succ_add] at h
    obtain ⟨u, h1, h2⟩ := h
    obtain ⟨v, h3, h4⟩ := ih h2
    have hq : p + 1 + BitVec.ofNat 16 m = p + BitVec.ofNat 16 (m + 1) := by
      rw [BitVec.add_assoc, ← BitVec.ofNat_add_ofNat, BitVec.add_comm (BitVec.ofNat 16 m)]
      rfl
    exact ⟨v, ⟨u, h1, h3⟩, hq ▸ h4⟩

theorem readsWords_polls {chars : Word → List Byte} (n : Nat) {p : Word} {s t : State} (h : ReadsWords chars n p s t) :
    (s.console.Settled → t.console.Settled) ∧ (t.console.Settled ∨ t.console.pollsLeft ≤ s.console.pollsLeft) := by
  induction n generalizing p s with
  | zero => cases h; exact ⟨id, .inr le_rfl⟩
  | succ n ih =>
    obtain ⟨u, h1, h2⟩ := h
    have hu := readsWord_polls h1
    have ht := ih h2
    exact ⟨ht.1 ∘ hu.1, hu.2.elim (.inl ∘ ht.1) fun hl => ht.2.imp id fun hl' => hl'.trans hl⟩

theorem readsWords_never_fails {chars : Word → List Byte} (hch : ∀ w, chars w ≠ []) (n : Nat) {p : Word} {s t : State}
    (h : ReadsWords chars n p s t) (hf : s.console.failAfter = none) : t.console.failAfter = none := by
  induction n generalizing p s with
  | zero => cases h; exact hf
  | succ n ih =>
    obtain ⟨u, h1, h2⟩ := h
    exact ih h2 ((readsWord_failAfter hch h1).1 hf)

/-- A console that will fail lets no more words be written than operations are left. -/
theorem readsWords_le_failAfter {chars : Word → List Byte} (hch : ∀ w, chars w ≠ []) (n : Nat) {p : Word} {s t : State}
    {k : Nat} (h : ReadsWords chars n p s t) (hf : s.console.failAfter = some k) : n ≤ k := by
  induction n generalizing p s k with
  | zero => exact Nat.zero_le k
  | succ n ih =>
    obtain ⟨u, h1, h2⟩ := h
    obtain ⟨j, hj, hlt⟩ := (readsWord_failAfter hch h1).2 k hf
    have := ih h2 hj
    omega

/-- A round over all addresses reads each of them. -/
theorem readsWords_round_reads {chars : Word → List Byte} {p : Word} {s t : State} (h : ReadsWords chars 65536 p s t)
    (a : Word) : ∃ i j u v, ReadsWords chars i p s u ∧ ReadsWord chars a u v ∧ ReadsWords chars j (a + 1) v t := by
  have hi : (a - p).toNat < 65536 := (a - p).isLt
  have ha : p + BitVec.ofNat 16 (a - p).toNat = a := by
    rw [BitVec.ofNat_toNat, BitVec.setWidth_eq, BitVec.add_comm, BitVec.sub_add_cancel]
  rw [show 65536 = (a - p).toNat + ((65536 - (a - p).toNat - 1) + 1) by omega] at h
  obtain ⟨u, h1, v, h2, h3⟩ := readsWords_split _ _ h
  rw [ha] at h2 h3
  exact ⟨_, _, u, v, h1, h2, h3⟩

/-- A round polls, and so settles the console or leaves fewer polls. -/
theorem readsWords_round_polls {chars : Word → List Byte} {p : Word} {s t : State}
    (h : ReadsWords chars 65536 p s t) : t.console.Settled ∨ t.console.pollsLeft < s.console.pollsLeft := by
  obtain ⟨i, j, u, v, h1, h2, h3⟩ := readsWords_round_reads h kbsr
  have hu := readsWords_polls _ h1
  have ht := readsWords_polls _ h3
  rcases hu.2 with hs | hu
  · exact .inl (ht.1 ((readsWord_polls h2).1 hs))
  · rcases readsWord_kbsr h2 with hv | hv
    · exact .inl (ht.1 hv)
    · exact ht.2.imp id fun hl => by omega

/-- As many rounds as polls are left, and one more, settle the console. -/
theorem readsWords_rounds_settle {chars : Word → List Byte} (k : Nat) {p : Word} {s t : State}
    (h : ReadsWords chars (65536 * k) p s t) : t.console.Settled ∨ t.console.pollsLeft + k ≤ s.console.pollsLeft := by
  induction k generalizing p s with
  | zero => cases h; exact .inr le_rfl
  | succ k ih =>
    rw [Nat.mul_succ, Nat.add_comm] at h
    obtain ⟨u, h1, h2⟩ := readsWords_split _ _ h
    rcases ih h2 with ht | ht
    · exact .inl ht
    · rcases readsWords_round_polls h1 with hu | hu
      · exact .inl ((readsWords_polls _ h2).1 hu)
      · exact .inr (by omega)

theorem statusIdle_idem (mode : PollMode) (w : Word) : statusIdle mode (statusIdle mode w) = statusIdle mode w := by
  cases mode <;> simp [statusIdle, BitVec.and_assoc]

/-- While the console is settled, only KBSR changes, and by idle polls only. -/
theorem readsWords_settled_frame {chars : Word → List Byte} (n : Nat) {p : Word} {s t : State}
    (hs : s.console.Settled) (h : ReadsWords chars n p s t) :
    t.params = s.params ∧ (∀ a, a ≠ kbsr → t.word a = s.word a) ∧
    statusIdle s.params.pollMode (t.word kbsr) = statusIdle s.params.pollMode (s.word kbsr) := by
  induction n generalizing p s with
  | zero => cases h; exact ⟨rfl, fun _ _ => rfl, rfl⟩
  | succ n ih =>
    obtain ⟨u, h1, h2⟩ := h
    obtain ⟨hpar, hwords, hst⟩ := ih ((readsWord_polls h1).1 hs) h2
    by_cases hp : p = kbsr
    · subst hp
      obtain ⟨-, hpar1, hwords1, hst1, -⟩ := readsWord_kbsr_settled hs h1
      rw [hpar1] at hst
      exact ⟨hpar.trans hpar1, fun a ha => (hwords a ha).trans (hwords1 a ha), by rw [hst, hst1, statusIdle_idem]⟩
    · obtain ⟨-, hm, hpar1, -⟩ := readsWord_ordinary hp h1
      have hword : ∀ a, u.word a = s.word a := fun a => by simp [State.word, hm]
      rw [hpar1, hword] at hst
      exact ⟨hpar.trans hpar1, fun a ha => (hwords a ha).trans (hword a), hst⟩

end Sys2Proof.Machine
end

