-- ==== Sys2Proof/Tests/Slice0.lean ====
section
/-! SUPPORT. Tests: the well-formedness checks, a written-out word for every constructor's decoding, single steps with
the results of spec/95_test_vectors.md, and for every statement with hypotheses a concrete case that meets them. -/

namespace Sys2Proof.Tests

open Sys2Proof.Machine

/-! ### Well-formedness: each check refuses an ill-formed term and passes its neighbour -/

theorem test_wellFormed_jmp_r7_refused : WellFormed (.jmp .r7) = false ∧ WellFormed (.jmp .r6) = true := by decide

theorem test_wellFormed_defined_vector_refused :
    WellFormed (.trapUndefined 0x20) = false ∧ WellFormed (.trapUndefined 0x25) = false ∧
    WellFormed (.trapUndefined 0x1F) = true ∧ WellFormed (.trapUndefined 0x26) = true := by decide

/-- What is not one word is no instruction (R80, R92). -/
theorem test_decode_rejects_other_lengths :
    decodeTableWord 8 0 = none ∧ decodeTableWord 32 0x1025 = none ∧ decodeTableWord 16 65536 = none ∧
    decodeTableWord 16 0x1025 = some (.addImm .r0 .r0 5) := by decide

/-! ### Decoding: the words are written field by field from the layouts of 30_encoding.md R82 to R85 -/

theorem test_decode_br : decode 0b0000_101_111111101 = .br true false true (-3) := by decide
theorem test_decode_addReg : decode 0b0001_010_000_0_00_001 = .addReg .r2 .r0 .r1 := by decide
theorem test_decode_addImm : decode 0b0001_011_011_1_10000 = .addImm .r3 .r3 (-16) := by decide
theorem test_decode_andReg : decode 0b0101_011_001_0_00_010 = .andReg .r3 .r1 .r2 := by decide
theorem test_decode_andImm : decode 0b0101_001_010_1_01111 = .andImm .r1 .r2 15 := by decide
theorem test_decode_not : decode 0b1001_101_110_111111 = .notReg .r5 .r6 := by decide
theorem test_decode_ld : decode 0b0010_100_011111111 = .ld .r4 255 := by decide
theorem test_decode_ldi : decode 0b1010_111_100000000 = .ldi .r7 (-256) := by decide
theorem test_decode_ldr : decode 0b0110_011_001_100000 = .ldr .r3 .r1 (-32) := by decide
theorem test_decode_lea : decode 0b1110_101_000000001 = .lea .r5 1 := by decide
theorem test_decode_st : decode 0b0011_110_111111111 = .st .r6 (-1) := by decide
theorem test_decode_sti : decode 0b1011_001_000000100 = .sti .r1 4 := by decide
theorem test_decode_str : decode 0b0111_010_110_011111 = .str .r2 .r6 31 := by decide
theorem test_decode_jmp : decode 0b1100_000_011_000000 = .jmp .r3 := by decide
theorem test_decode_ret : decode 0b1100_000_111_000000 = .ret := by decide
theorem test_decode_jsr : decode 0b0100_1_10000000000 = .jsr (-1024) := by decide
theorem test_decode_jsrr : decode 0b0100_0_00_010_000000 = .jsrr .r2 := by decide
theorem test_decode_getc : decode 0b1111_0000_00100000 = .getc := by decide
theorem test_decode_out : decode 0b1111_0000_00100001 = .out := by decide
theorem test_decode_puts : decode 0b1111_0000_00100010 = .puts := by decide
theorem test_decode_in : decode 0b1111_0000_00100011 = .inTrap := by decide
theorem test_decode_putsp : decode 0b1111_0000_00100100 = .putsp := by decide
theorem test_decode_halt : decode 0b1111_0000_00100101 = .halt := by decide
theorem test_decode_undefined_vector : decode 0b1111_0000_11111111 = .trapUndefined 0xFF := by decide
theorem test_decode_rti : decode 0b1000_000000000000 = .rti := by decide
theorem test_decode_res : decode 0b1101_000000000000 = .res := by decide

/-- Ignored bits set (vectors A11, A21, B11, B21, T17 and 2.8). -/
theorem test_decode_ignores_unused_bits :
    decode 0x1419 = .addReg .r2 .r0 .r1 ∧ decode 0x9200 = .notReg .r1 .r0 ∧ decode 0xCEFF = .jmp .r3 ∧
    decode 0xCFFF = .ret ∧ decode 0x46BF = .jsrr .r2 ∧ decode 0x47FF = .jsrr .r7 ∧ decode 0xFF25 = .halt ∧
    decode 0x8FFF = .rti ∧ decode 0xDFFF = .res := by decide

/-! ### Single steps; each name ends in the vector of spec/95_test_vectors.md it takes its result from -/

/-- The registers after reset with some of the first four set. -/
def low4 (r0 r1 r2 r3 : Word) : RegFile := { RegFile.reset with r0 := r0, r1 := r1, r2 := r2, r3 := r3 }

/-- The state after reset, with memory and registers. -/
def rig (mem : Memory) (regs : RegFile) : State := { State.reset with mem := mem, regs := regs }

/-- A console with characters to deliver, and answers for the polls. -/
def typed (input : List Byte) (keyReady : List Bool) : Console :=
  { Console.reset with input := input, keyReady := keyReady }

/-- What one step leaves, seen through `f`. -/
def see {α : Type} (f : State → α) (s : State) : Option α :=
  match step s with
  | .next t => some (f t)
  | .fault _ => none
  | .refused _ => none

theorem test_add_register_overflows_a2 :
    see (fun t => (t.regs.r2, t.cond, t.pc)) (rig [(0x3000, 0x1401)] (low4 0x7FFF 1 0 0)) =
      some (0x8000, .negative, 0x3001) := by decide

theorem test_add_register_carry_is_lost_a3 :
    see (fun t => (t.regs.r2, t.cond)) (rig [(0x3000, 0x1401)] (low4 0xFFFF 1 0 0)) = some (0, .zero) := by decide

theorem test_add_immediate_a6 :
    see (fun t => (t.regs.r1, t.cond)) (rig [(0x3000, 0x127F)] (low4 0 0 0 0)) = some (0xFFFF, .negative) := by decide

theorem test_add_immediate_most_negative_a8 :
    see (fun t => (t.regs.r3, t.cond)) (rig [(0x3000, 0x16F0)] (low4 0 0 0 0x10)) = some (0, .zero) := by decide

theorem test_and_register_a12 :
    see (fun t => (t.regs.r3, t.cond)) (rig [(0x3000, 0x5642)] (low4 0 0xFF0F 0x0FF0 0)) =
      some (0x0F00, .positive) := by decide

theorem test_and_immediate_a16 :
    see (fun t => (t.regs.r1, t.cond)) (rig [(0x3000, 0x52B0)] (low4 0 0 0xABCD 0)) =
      some (0xABC0, .negative) := by decide

theorem test_not_a20 :
    see (fun t => (t.regs.r1, t.cond)) (rig [(0x3000, 0x923F)] (low4 0x8000 0 0 0)) = some (0x7FFF, .positive) := by decide

/-- The 24 combinations of vector table 2.3. -/
theorem test_br_table :
    ([0x0010, 0x0210, 0x0410, 0x0610, 0x0810, 0x0A10, 0x0C10, 0x0E10].map fun w : Word =>
      [Cond.negative, .zero, .positive].map fun c =>
        see (fun t => (t.pc, t.cond == c)) { rig [(0x3000, w)] RegFile.reset with cond := c }) =
    ([[0x3001, 0x3001, 0x3001], [0x3001, 0x3001, 0x3011], [0x3001, 0x3011, 0x3001], [0x3001, 0x3011, 0x3011],
      [0x3011, 0x3001, 0x3001], [0x3011, 0x3001, 0x3011], [0x3011, 0x3011, 0x3001], [0x3011, 0x3011, 0x3011]].map
      fun row : List Word => row.map fun pc => some (pc, true)) := by decide

theorem test_br_wraps_b7 :
    see (fun t => t.pc) { rig [(0xFFFF, 0x0E01)] RegFile.reset with pc := 0xFFFF } = some 1 := by decide

theorem test_jmp_b9 :
    see (fun t => (t.pc, t.regs.r7, t.cond)) { rig [(0x3000, 0xC0C0)] (low4 0 0 0 0x4000) with cond := .negative } =
      some (0x4000, 0, .negative) := by decide

theorem test_ret_b10 :
    see (fun t => t.pc)
      { rig [(0x4005, 0xC1C0)] { RegFile.reset with r7 := 0x3001 } with pc := 0x4005 } = some 0x3001 := by decide

theorem test_jsr_b14 :
    see (fun t => (t.regs.r7, t.pc, t.cond)) (rig [(0x3000, 0x4C00)] RegFile.reset) =
      some (0x3001, 0x2C01, .zero) := by decide

theorem test_jsr_link_wraps_b18 :
    see (fun t => (t.regs.r7, t.pc, t.cond)) { rig [(0xFFFF, 0x4800)] RegFile.reset with pc := 0xFFFF } =
      some (0, 0, .zero) := by decide

theorem test_jsrr_b19 :
    see (fun t => (t.regs.r7, t.pc)) (rig [(0x3000, 0x4080)] (low4 0 0 0x5000 0)) = some (0x3001, 0x5000) := by decide

theorem test_jsrr_through_r7_b20 :
    see (fun t => (t.regs.r7, t.pc)) (rig [(0x3000, 0x41C0)] { RegFile.reset with r7 := 0x5000 }) =
      some (0x3001, 0x3001) := by decide

theorem test_ld_farthest_back_m5 :
    see (fun t => (t.regs.r1, t.cond)) (rig [(0x2F01, 0x7FFF), (0x3000, 0x2300)] RegFile.reset) =
      some (0x7FFF, .positive) := by decide

theorem test_ld_wraps_m6 :
    see (fun t => (t.regs.r4, t.cond, t.pc)) { rig [(1, 0x8000), (0xFFFF, 0x2801)] RegFile.reset with pc := 0xFFFF } =
      some (0x8000, .negative, 0) := by decide

theorem test_ldi_flags_from_the_data_m9 :
    see (fun t => (t.regs.r2, t.cond))
      { rig [(0x3000, 0xA401), (0x3002, 0x4000)] (low4 0 0 7 0) with cond := .positive } =
      some (0, .zero) := by decide

theorem test_ldi_polls_k1 :
    see (fun t => (t.word 0xFE00, t.word 0xFE02, t.regs.r0, t.cond, t.console.input))
      { rig [(0x3000, 0xA001), (0x3002, 0xFE00)] RegFile.reset with console := typed [0x41, 0x42] [true] } =
      some (0x8000, 0x41, 0x8000, .negative, [0x42]) := by decide

theorem test_ldr_base_is_destination_m13 :
    see (fun t => (t.regs.r1, t.cond)) (rig [(0x3000, 0x6240), (0x4000, 0x4004)] (low4 0 0x4000 0 0)) =
      some (0x4004, .positive) := by decide

theorem test_ldr_failing_read_k13 :
    see (fun t => (t.word 0xFE00, t.word 0xFE02, t.regs.r0, t.run, t.pc))
      { rig [(0x3000, 0x6040)] (low4 5 0xFE00 0 0) with
        console := { typed [0x43] [true] with failAfter := some 1 } } =
      some (0x8000, 0, 5, .faulted .ioFailure, 0x3001) := by decide

theorem test_lea_sets_zero_m19 :
    see (fun t => (t.regs.r0, t.cond, t.pc))
      { rig [(0xFFFE, 0xE001)] (low4 9 0 0 0) with pc := 0xFFFE, cond := .positive } =
      some (0, .zero, 0xFFFF) := by decide

theorem test_lea_reads_nothing_m21 :
    see (fun t => (t.regs.r5, t.word 0xFE00, t.word 0xFE02, t.console.input))
      { rig [(0xFD00, 0xEAFF)] RegFile.reset with pc := 0xFD00, console := typed [0x41] [true] } =
      some (0xFE00, 0, 0, [0x41]) := by decide

theorem test_st_keeps_the_flags_m22 :
    see (fun t => (t.word 0x3004, t.cond))
      { rig [(0x3000, 0x3203)] (low4 0 0x1234 0 0) with cond := .negative } =
      some (0x1234, .negative) := by decide

theorem test_st_to_kbsr_never_polls_m31 :
    see (fun t => (t.word 0xFE00, t.word 0xFE02, t.console.input))
      { rig [(0xFD00, 0x36FF)] (low4 0 0 0 0x1234) with pc := 0xFD00, console := typed [0x41] [true] } =
      some (0x1234, 0, [0x41]) := by decide

theorem test_sti_m26 :
    see (fun t => t.word 0x3001) (rig [(0x3000, 0xB200), (0x3001, 0x3001)] (low4 0 0xAAAA 0 0)) =
      some 0xAAAA := by decide

theorem test_sti_pointer_polls_k10 :
    see (fun t => (t.word 0xFE00, t.word 0xFE02, t.word 0x8000))
      { rig [(0xFD00, 0xB2FF)] (low4 0 0x1234 0 0) with pc := 0xFD00, console := typed [0x41] [true] } =
      some (0x8000, 0x41, 0x1234) := by decide

theorem test_str_wraps_m30 :
    see (fun t => t.word 0x000F)
      (rig [(0x3000, 0x759F)] { low4 0 0 0x5555 0 with r6 := 0xFFF0 }) = some 0x5555 := by decide

theorem test_getc_t3 :
    see (fun t => (t.regs.r0, t.cond, t.console.output, t.console.input))
      { rig [(0x3000, 0xF020)] (low4 0x1234 0 0 0) with cond := .positive, console := typed [0xFF] [] } =
      some (0x00FF, .positive, [], []) := by decide

theorem test_getc_fails_t4 :
    see (fun t => (t.regs.r0, t.pc, t.run))
      { rig [(0x3000, 0xF020)] (low4 0xFFFF 0 0 0) with console := { Console.reset with failAfter := some 0 } } =
      some (0xFFFF, 0x3001, .faulted .ioFailure) := by decide

theorem test_out_t5 :
    see (fun t => (t.console.output, t.regs.r0)) (rig [(0x3000, 0xF021)] (low4 0x1241 0 0 0)) =
      some ([0x41], 0x1241) := by decide

theorem test_puts_t9 :
    see (fun t => (t.console.output, t.regs.r0, t.cond))
      (rig [(0x3000, 0xF022), (0x4000, 0x4100), (0x4001, 0x1242)] (low4 0x4000 0 0 0)) =
      some ([0x00, 0x42], 0x4000, .zero) := by decide

theorem test_puts_over_kbsr_k12 :
    see (fun t => (t.console.output, t.word 0xFE00, t.word 0xFE02))
      { rig [(0x3000, 0xF022), (0xFDFF, 0x41), (0xFE01, 0x43)] (low4 0xFDFF 0 0 0) with
        console := typed [0x58] [true] } =
      some ([0x41, 0x00, 0x43, 0x58], 0x8000, 0x58) := by decide

theorem test_in_t11 :
    see (fun t => (t.regs.r0, t.cond, t.console.output))
      { rig [(0x3000, 0xF023)] (low4 0xFFFF 0 0 0) with
        cond := .negative, console := typed [0x7A] [], params := { pollMode := .bit15Only, inPrompt := [0x3F, 0x20] } } =
      some (0x7A, .negative, [0x3F, 0x20, 0x7A]) := by decide

theorem test_putsp_t13 :
    see (fun t => t.console.output)
      (rig [(0x3000, 0xF024), (0x4000, 0x6548), (0x4001, 0x6C6C), (0x4002, 0x006F)] (low4 0x4000 0 0 0)) =
      some [0x48, 0x65, 0x6C, 0x6C, 0x6F] := by decide

theorem test_putsp_zero_low_byte_t15 :
    see (fun t => t.console.output) (rig [(0x3000, 0xF024), (0x4000, 0x4100)] (low4 0x4000 0 0 0)) =
      some [0x00, 0x41] := by decide

theorem test_halt_t16 :
    see (fun t => (t.run, t.pc, t.regs.r0, t.cond, t.console.output))
      { rig [(0x3000, 0xF025)] (low4 5 0 0 0) with cond := .positive } =
      some (.halted, 0x3001, 5, .positive, []) := by decide

theorem test_undefined_vector_t19 :
    see (fun t => (t.run, t.pc)) (rig [(0x3000, 0xF026)] RegFile.reset) =
      some (.faulted .illegalTrapVector, 0x3001) := by decide

theorem test_rti_t20 :
    see (fun t => (t.run, t.pc, t.cond)) { rig [(0x3000, 0x8000)] RegFile.reset with cond := .negative } =
      some (.faulted .illegalOpcode, 0x3001, .negative) := by decide

theorem test_res_t23 :
    see (fun t => (t.run, t.pc, t.regs.r0)) (rig [(0x3000, 0xDABC)] (low4 7 0 0 0)) =
      some (.faulted .illegalOpcode, 0x3001, 7) := by decide

theorem test_fetch_from_kbsr_k8 :
    see (fun t => (t.word 0xFE00, t.pc, t.run)) { rig [(0xFE00, 0xF025)] RegFile.reset with pc := 0xFE00 } =
      some (0x7025, 0xFE01, .running) := by decide

theorem test_poll_whole_word_k4w :
    see (fun t => (t.word 0xFE00, t.word 0xFE02, t.regs.r0))
      { rig [(0x3000, 0x6040), (0xFE00, 5)] (low4 0 0xFE00 0 0) with
        console := typed [0x43] [true], params := { pollMode := .wholeWord, inPrompt := [] } } =
      some (0x8000, 0x43, 0x8000) := by decide

theorem test_poll_idle_keeps_low_bits_k5 :
    see (fun t => (t.word 0xFE00, t.regs.r0, t.cond))
      (rig [(0x3000, 0x6040), (0xFE00, 0x8005)] (low4 0 0xFE00 0 0)) =
      some (5, 5, .positive) := by decide

/-- R222's byte order: the first byte of a pair is the high one; malformed images, and an origin alone (log 22). -/
theorem test_image_is_big_endian :
    loadImage [0x30, 0x00, 0x10, 0x25, 0xF0, 0x25] [] = some [(0x3000, 0x1025), (0x3001, 0xF025)] ∧
    loadImage [0x30] [] = none ∧ loadImage [0x30, 0x00, 0x10] [] = none ∧ loadImage [] [] = none ∧
    loadImage [0x30, 0x00] [] = some [] := by decide

/-! ### Witnesses: concrete cases that meet the hypotheses of each statement, clause by clause

Each theorem is named after the statement of Certificates/Slice0/Obligations.lean whose hypotheses it meets. -/

/-- The state after reset with another console. -/
def withTyped (c : Console) : State := { State.reset with console := c }

/-- A console that answers `n` more operations and then fails. -/
def failing (n : Nat) : Console := { typed [0x41, 0x42, 0x43] [true, true, true, true] with failAfter := some n }

/-- A console that finds no key and fails after `n` operations. -/
def failingIdle (n : Nat) : Console := { Console.reset with failAfter := some n }

/-- R1 points at KBSR, whose word is 5; the word at 0x4000 is 7. -/
def device (c : Console) : State :=
  { rig [(0x3000, 0xFE00), (0x3001, 0xFE00), (0x4000, 7), (0xFE00, 5)] (low4 0 0xFE00 0x4000 0xFFFD) with console := c }

theorem witness_DecodeOfEncodeIsTheInstruction :
    WellFormed (.jmp .r6) = true ∧ WellFormed (.trapUndefined 0x26) = true := by decide

theorem witness_EveryWordSelectsOneRow :
    (WellFormed (.jmp .r0) = true ∧ (rowOf (.jmp .r0)).selects 0xC1C0 = true) ∧
    (WellFormed (.trapUndefined 0) = true ∧ (rowOf (.trapUndefined 0)).selects 0xF025 = true) ∧
    (WellFormed (.addImm .r1 .r1 0) = true ∧ (rowOf (.addImm .r1 .r1 0)).selects 0x1025 = true) := by decide

theorem witness_IgnoredBitsDoNotMatter :
    (0x1401 : Word) &&& ~~~(rowOf (decode 0x1401)).ignored = 0x1419 &&& ~~~(rowOf (decode 0x1401)).ignored := by decide

/-- Running cores that execute the illegal words at the edges of their ranges, and their legal neighbours. -/
theorem witness_IllegalEncodingsAreExactlyThese :
    State.reset.run = .running ∧ (∃ t, exec (decode 0x8FFF) State.reset = .next t ∧ t.run = .faulted .illegalOpcode) ∧
    (∃ t, exec (decode 0xD000) State.reset = .next t ∧ t.run = .faulted .illegalOpcode) ∧
    (∃ t, exec (decode 0xF01F) State.reset = .next t ∧ t.run = .faulted .illegalTrapVector) ∧
    (∃ t, exec (decode 0xF026) State.reset = .next t ∧ t.run = .faulted .illegalTrapVector) ∧
    (∃ t, exec (decode 0x7FFF) State.reset = .next t ∧ t.run = .running) ∧
    (∃ t, exec (decode 0xF025) State.reset = .next t ∧ t.run = .halted) :=
  ⟨rfl, ⟨_, rfl, by decide⟩, ⟨_, rfl, by decide⟩, ⟨_, rfl, by decide⟩, ⟨_, rfl, by decide⟩, ⟨_, rfl, by decide⟩,
    ⟨_, rfl, by decide⟩⟩

/-- Both signs of each width at their boundary (vectors 2.1). -/
theorem witness_SignExtensionOfAllFourWidths :
    (0b01111#5).getLsbD (5 - 1) = false ∧ (0b10000#5).getLsbD (5 - 1) = true ∧
    (0x1F#6).getLsbD (6 - 1) = false ∧ (0x20#6).getLsbD (6 - 1) = true ∧
    (0xFF#9).getLsbD (9 - 1) = false ∧ (0x100#9).getLsbD (9 - 1) = true ∧
    (0x3FF#11).getLsbD (11 - 1) = false ∧ (0x400#11).getLsbD (11 - 1) = true := by decide

theorem witness_SetccFollowsTheSignOfTheValue :
    (0x8000 : Word).getLsbD 15 = true ∧ (0xFFFF : Word).getLsbD 15 = true ∧
    ((1 : Word) ≠ 0 ∧ (1 : Word).getLsbD 15 = false) ∧ ((0x7FFF : Word) ≠ 0 ∧ (0x7FFF : Word).getLsbD 15 = false) := by
  decide

theorem witness_OnlySevenInstructionsWriteTheFlags :
    (∃ t, exec .halt State.reset = .next t ∧ setsFlags .halt = false) ∧
    (∃ t, exec (.lea .r3 0) State.reset = .next t ∧ setsFlags (.lea .r3 0) = true ∧
      State.reset.run = .running ∧ t.run = .running) ∧
    (∃ t, exec (.ldr .r0 .r1 0) (device (failing 0)) = .next t ∧ setsFlags (.ldr .r0 .r1 0) = true ∧
      (device (failing 0)).run = .running ∧ t.run ≠ .running) :=
  ⟨⟨_, rfl, rfl⟩, ⟨_, rfl, rfl, rfl, rfl⟩, ⟨_, rfl, rfl, rfl, by decide⟩⟩

theorem witness_AddAddsModulo65536AndSetsFlags :
    ((0x1025 : Word).extractLsb' 12 4 = 0b0001#4 ∧ (0x1025 : Word).getLsbD 5 = true) ∧
    ((0x1401 : Word).extractLsb' 12 4 = 0b0001#4 ∧ (0x1401 : Word).getLsbD 5 = false) ∧
    (device Console.reset).reg .r3 = sext (-3 : BitVec 5) := by decide

theorem witness_AndIsBitwiseAndSetsFlags :
    ((0x52BF : Word).extractLsb' 12 4 = 0b0101#4 ∧ (0x52BF : Word).getLsbD 5 = true) ∧
    ((0x5642 : Word).extractLsb' 12 4 = 0b0101#4 ∧ (0x5642 : Word).getLsbD 5 = false) ∧
    (device Console.reset).reg .r3 = sext (-3 : BitVec 5) := by decide

theorem witness_NotComplementsAndSetsFlags : (0x9200 : Word).extractLsb' 12 4 = 0b1001#4 := by decide

theorem witness_BranchIsTakenWhenAFlagMatches :
    (0x0FFF : Word).extractLsb' 12 4 = 0b0000#4 ∧ State.reset.cond = .zero ∧
    ((false = true ∧ State.reset.cond = .negative) ∨ (true = true ∧ State.reset.cond = .zero) ∨
      (false = true ∧ State.reset.cond = .positive)) ∧
    ¬((true = true ∧ State.reset.cond = .negative) ∨ (false = true ∧ State.reset.cond = .zero) ∨
      (true = true ∧ State.reset.cond = .positive)) := by decide

theorem witness_JumpLoadsThePcFromTheBaseRegister :
    ((0xC1C0 : Word).extractLsb' 12 4 = 0b1100#4 ∧ Reg.ofBits ((0xC1C0 : Word).extractLsb' 6 3) = .r7) ∧
    ((0xCFBF : Word).extractLsb' 12 4 = 0b1100#4 ∧ Reg.ofBits ((0xCFBF : Word).extractLsb' 6 3) ≠ .r7) := by decide

theorem witness_JsrLinksAndBranches :
    (0x4800 : Word).extractLsb' 12 4 = 0b0100#4 ∧ (0x4800 : Word).getLsbD 11 = true := by decide

theorem witness_JsrrLinksBeforeItReadsTheBase :
    (0x47FF : Word).extractLsb' 12 4 = 0b0100#4 ∧ (0x47FF : Word).getLsbD 11 = false ∧
    Reg.r6 ≠ .r7 ∧ Reg.r7 = .r7 := by decide

/-- The decode clauses of the loads and stores. -/
theorem witness_load_and_store_words :
    (0x2200 : Word).extractLsb' 12 4 = 0b0010#4 ∧ (0x667E : Word).extractLsb' 12 4 = 0b0110#4 ∧
    (0xA401 : Word).extractLsb' 12 4 = 0b1010#4 ∧ (0xE002 : Word).extractLsb' 12 4 = 0b1110#4 ∧
    (0x3203 : Word).extractLsb' 12 4 = 0b0011#4 ∧ (0x7FFF : Word).extractLsb' 12 4 = 0b0111#4 ∧
    (0xB204 : Word).extractLsb' 12 4 = 0b1011#4 := by decide

/-- LoadsFrom: an ordinary address next to KBSR, a read of KBSR that goes on, and one that stops. -/
theorem witness_LoadsFrom :
    (0xFE01 : Word) ≠ kbsr ∧ (0xFDFF : Word) ≠ kbsr ∧
    (∃ v s1, memRead kbsr (device (typed [0x41] [true])) = .done v s1) ∧
    (∃ s1, memRead kbsr (device (failing 0)) = .stopped s1) ∧ (∃ s1, memRead kbsr (device (failing 1)) = .stopped s1) :=
  ⟨by decide, by decide, ⟨_, _, rfl⟩, ⟨_, rfl⟩, ⟨_, rfl⟩⟩

/-- From the PC 0xFD01 the largest offset gives KBSR itself. -/
theorem witness_LdLoadsFromThePcRelativeAddress :
    (∃ s1, memRead (0xFD01 + sext (255 : BitVec 9)) { device (failing 1) with pc := 0xFD01 } = .stopped s1) ∧
    (∃ v s1, memRead (0xFD01 + sext (255 : BitVec 9)) { device Console.reset with pc := 0xFD01 } = .done v s1) ∧
    (0x3001 + sext (-256 : BitVec 9) : Word) ≠ kbsr := ⟨⟨_, rfl⟩, ⟨_, _, rfl⟩, by decide⟩

theorem witness_LdrLoadsFromTheBaseRegister :
    (∃ s1, memRead ((device (failing 1)).reg .r1 + sext (0 : BitVec 6)) (device (failing 1)) = .stopped s1) ∧
    (∃ v s1, memRead ((device Console.reset).reg .r1 + sext (0 : BitVec 6)) (device Console.reset) = .done v s1) ∧
    (device Console.reset).reg .r2 + sext (31 : BitVec 6) ≠ kbsr := ⟨⟨_, rfl⟩, ⟨_, _, rfl⟩, by decide⟩

/-- The clauses of LDI: both reads ordinary; a pointer at 0x3000 to KBSR whose poll goes on, or stops; a pointer that
is KBSR's own word, stopped; and a register that holds the pointer. -/
theorem witness_LdiLoadsThroughThePointer :
    (State.reset.pc + sext (0 : BitVec 9) ≠ kbsr ∧ State.reset.word (State.reset.pc + sext (0 : BitVec 9)) ≠ kbsr) ∧
    (∃ p s1 v s2, memRead ((device Console.reset).pc + sext (0 : BitVec 9)) (device Console.reset) = .done p s1 ∧
      memRead p s1 = .done v s2) ∧
    (∃ s1, memRead (0xFD01 + sext (255 : BitVec 9)) { device (failing 0) with pc := 0xFD01 } = .stopped s1) ∧
    (∃ p s1 s2, memRead ((device (failing 1)).pc + sext (0 : BitVec 9)) (device (failing 1)) = .done p s1 ∧
      memRead p s1 = .stopped s2) ∧
    ((device Console.reset).pc + sext (0 : BitVec 9) ≠ kbsr ∧
      (device Console.reset).reg .r1 = (device Console.reset).word ((device Console.reset).pc + sext (0 : BitVec 9))) :=
  ⟨by decide, ⟨_, _, _, _, rfl, rfl⟩, ⟨_, rfl⟩, ⟨_, _, _, rfl, rfl⟩, by decide⟩

/-- A first poll that succeeds and a second that fails in one LDI: the word at KBSR points at KBSR. -/
theorem witness_LdiLoadsThroughThePointer_two_polls :
    ∃ p s1 s2, memRead (0xFD01 + sext (255 : BitVec 9))
        { rig [(0xFE00, 0xFE00)] RegFile.reset with pc := 0xFD01, console := failing 2 } = .done p s1 ∧
      memRead p s1 = .stopped s2 := ⟨_, _, _, rfl, rfl⟩

theorem witness_StiStoresThroughThePointer :
    State.reset.pc + sext (0 : BitVec 9) ≠ kbsr ∧
    (∃ p s1, memRead (0xFD01 + sext (255 : BitVec 9)) { device (typed [0x41] [true]) with pc := 0xFD01 } = .done p s1) ∧
    (∃ s1, memRead (0xFD01 + sext (255 : BitVec 9)) { device (failing 0) with pc := 0xFD01 } = .stopped s1) :=
  ⟨by decide, ⟨_, _, rfl⟩, ⟨_, rfl⟩⟩

theorem witness_StoredWordIsReadBack : (0xFE02 : Word) ≠ kbsr ∧ (0xFDFF : Word) ≠ kbsr := by decide

theorem witness_EqualMemoriesAreEqualData :
    ∃ m m' : Memory, Memory.wf m = true ∧ Memory.wf m' = true ∧ m ≠ [] ∧
      ∀ a : Word, Memory.lookup m a.toNat = Memory.lookup m' a.toNat :=
  ⟨[(0, 1), (65535, 0x8000)], [(0, 1), (65535, 0x8000)], by decide, by decide, by decide, fun _ => rfl⟩

theorem witness_MemReadPollsOnlyAtTheStatusWord :
    (0xFE01 : Word) ≠ 0xFE00 ∧ (∃ t, keyboardPoll (device (typed [0x41] [true])) = .done () t) ∧
    (∃ t, keyboardPoll (device (failing 1)) = .stopped t) := ⟨by decide, ⟨_, rfl⟩, ⟨_, rfl⟩⟩

/-- A bound on the operations left before a failure, at its boundary. -/
theorem answers_boundary (n : Nat) : Answers n (failing n) ∧ Answers n (failingIdle n) :=
  ⟨fun _ h => by cases h; exact Nat.le_refl n, fun _ h => by cases h; exact Nat.le_refl n⟩

theorem answers_always (n : Nat) (input : List Byte) (keyReady : List Bool) : Answers n (typed input keyReady) :=
  fun _ h => by cases h

theorem witness_ReadingKbsrPollsTheKeyboard :
    ((failing 2).input = 0x41 :: [0x42, 0x43] ∧ (failing 2).findsKey = true ∧ Answers 2 (failing 2)) ∧
    ((failingIdle 1).findsKey = false ∧ Answers 1 (failingIdle 1)) ∧
    ((typed [0x41] [false]).findsKey = false ∧ Answers 1 (typed [0x41] [false])) :=
  ⟨⟨rfl, rfl, (answers_boundary 2).1⟩, ⟨rfl, (answers_boundary 1).2⟩, ⟨rfl, answers_always _ _ _⟩⟩

theorem witness_FailingPollKeepsWhatItDidBefore :
    (device (failing 0)).console.failAfter = some 0 ∧
    ((device (failing 1)).console.failAfter = some 1 ∧ (device (failing 1)).console.findsKey = true) := by decide

theorem witness_SecondPollOverwritesTheFirstKey :
    (failing 4).input = 0x41 :: 0x42 :: [0x43] ∧ (failing 4).keyReady = true :: true :: [true, true] ∧
    Answers 4 (failing 4) := ⟨rfl, rfl, (answers_boundary 4).1⟩

theorem witness_TrapDispatchesOnTheLowEightBits :
    (0xF020 : Word).extractLsb' 12 4 = 0b1111#4 ∧ (0xF020 : Word).extractLsb' 0 8 = 0x20#8 ∧
    (0xFF21 : Word).extractLsb' 0 8 = 0x21#8 ∧ (0xF022 : Word).extractLsb' 0 8 = 0x22#8 ∧
    (0xF023 : Word).extractLsb' 0 8 = 0x23#8 ∧ (0xF024 : Word).extractLsb' 0 8 = 0x24#8 ∧
    (0xF025 : Word).extractLsb' 0 8 = 0x25#8 ∧ ((0xF01F : Word).extractLsb' 0 8).toNat < 0x20 ∧
    0x25 < ((0xF026 : Word).extractLsb' 0 8).toNat := by decide

theorem witness_GetcReadsOneCharacterIntoR0 :
    ((withTyped (failing 1)).console.input = 0x41 :: [0x42, 0x43] ∧ Answers 1 (withTyped (failing 1)).console) ∧
    (withTyped (failing 0)).console.failAfter = some 0 := ⟨⟨rfl, (answers_boundary 1).1⟩, rfl⟩

theorem witness_OutWritesTheLowByteOfR0 :
    Answers 2 (withTyped (failing 2)).console ∧ (withTyped (failing 0)).console.failAfter = some 0 ∧
    (withTyped (failing 1)).console.failAfter = some 1 := ⟨(answers_boundary 2).1, rfl, rfl⟩

/-- A string that ends right before KBSR, and the empty one. -/
theorem witness_PutsWritesTheLowBytesOfTheString :
    (StringAt (rig [(0xFDFE, 0x4100)] (low4 0xFDFE 0 0 0)) 0xFDFE [0x4100] ∧ [(0x4100 : Word)].length < 65536 ∧
      (rig [(0xFDFE, 0x4100)] (low4 0xFDFE 0 0 0)).console.failAfter = none) ∧
    StringAt State.reset 0x4000 [] := by
  refine ⟨⟨⟨by decide, by decide, by decide, by decide, by decide⟩, by decide, rfl⟩, by decide, by decide⟩

/-- A string that wraps past 0xFFFF. -/
theorem witness_PutspWritesLowThenNonzeroHighBytes :
    StringAt (rig [(0, 0x006F), (0xFFFF, 0x6948)] (low4 0xFFFF 0 0 0)) 0xFFFF [0x6948, 0x006F] ∧
      [(0x6948 : Word), 0x006F].length < 65536 ∧
      (rig [(0, 0x006F), (0xFFFF, 0x6948)] (low4 0xFFFF 0 0 0)).console.failAfter = none :=
  ⟨⟨by decide, by decide, by decide, by decide, by decide, by decide, by decide, by decide⟩, by decide, rfl⟩

/-- The prompt has 19 characters; each clause at the boundary of the operations the console answers. -/
theorem witness_InPromptsReadsEchoesIntoR0 :
    State.reset.params.inPrompt.length = 19 ∧
    ((withTyped (failing 23)).console.input = 0x41 :: [0x42, 0x43] ∧ Answers (19 + 4) (withTyped (failing 23)).console) ∧
    ((withTyped (failingIdle 21)).console.input = [] ∧ Answers (19 + 2) (withTyped (failingIdle 21)).console) ∧
    ((withTyped (failing 0)).console.failAfter = some 0 ∧ 0 ≤ 19) ∧
    ((withTyped (failing 19)).console.failAfter = some 19 ∧ 19 ≤ 19) ∧
    (withTyped (failing 20)).console.failAfter = some (19 + 1) ∧
    (withTyped (failing 21)).console.failAfter = some (19 + 2) ∧
    (withTyped (failing 22)).console.failAfter = some (19 + 3) :=
  ⟨by decide, ⟨rfl, (answers_boundary 23).1⟩, ⟨rfl, (answers_boundary 21).2⟩, by decide, by decide, rfl, rfl, rfl⟩

theorem witness_HaltOnlyStopsTheCore : (0xFF25 : Word) &&& 0xF0FF = 0xF025 := by decide

/-- The vectors at the edges of the two undefined ranges. -/
theorem witness_UndefinedTrapVectorIsFatal :
    0xF000 ≤ (0xF000 : Word).toNat ∧
    ¬(0x20 ≤ (0xF000 : Word).toNat % 256 ∧ (0xF000 : Word).toNat % 256 ≤ 0x25) ∧
    ¬(0x20 ≤ (0xF01F : Word).toNat % 256 ∧ (0xF01F : Word).toNat % 256 ≤ 0x25) ∧
    ¬(0x20 ≤ (0xF026 : Word).toNat % 256 ∧ (0xF026 : Word).toNat % 256 ≤ 0x25) ∧
    ¬(0x20 ≤ (0xFFFF : Word).toNat % 256 ∧ (0xFFFF : Word).toNat % 256 ≤ 0x25) := by decide

theorem witness_RtiIsFatal :
    0x8000 ≤ (0x8000 : Word).toNat ∧ (0x8FFF : Word).toNat ≤ 0x8FFF ∧ 0x8000 ≤ (0x8FFF : Word).toNat := by decide

theorem witness_ReservedOpcodeIsFatal :
    0xD000 ≤ (0xD000 : Word).toNat ∧ (0xDFFF : Word).toNat ≤ 0xDFFF ∧ 0xD000 ≤ (0xDFFF : Word).toNat := by decide

/-! A string with no end: every word of memory is 1. -/

/-- Words equal to 1 at `n` addresses from `lo` on. -/
def ones (lo n : Nat) : Memory := (List.range' lo n).map fun a => (a, 1)

theorem lookup_ones (lo n a : Nat) (h1 : lo ≤ a) (h2 : a < lo + n) : Memory.lookup (ones lo n) a = 1 := by
  induction n generalizing lo with
  | zero => omega
  | succ n ih =>
    change (if a = lo then (1 : Word) else Memory.lookup (ones (lo + 1) n) a) = 1
    split
    · rfl
    · exact ih (lo + 1) (by omega) (by omega)

/-- Every word is 1 and the console stays quiet. -/
def AllOnes (s : State) : Prop :=
  (∀ a : Word, s.word a = 1) ∧ s.params.pollMode = .bit15Only ∧ s.console.input = [] ∧ s.console.failAfter = none

/-- The state after reset in a memory of ones, with a step held or none. -/
def onesState (held : Option Held) : State := { State.reset with mem := ones 0 65536, held := held }

theorem onesState_allOnes (held : Option Held) : AllOnes (onesState held) :=
  ⟨fun a => lookup_ones 0 65536 a.toNat (Nat.zero_le _) (by have := a.isLt; omega), rfl, rfl, rfl⟩

theorem memRead_allOnes (p : Word) {s : State} (h : AllOnes s) : ∃ t, memRead p s = .done 1 t ∧ AllOnes t := by
  obtain ⟨h1, h2, h3, h4⟩ := h
  have hf : s.console.findsKey = false := by simp [Console.findsKey, h3]
  by_cases hp : p = kbsr
  · subst hp
    rcases memRead_kbsr_cases s with ⟨hx, -⟩ | ⟨-, hx, -⟩ | ⟨hx, -⟩ | ⟨-, -, e⟩
    · simp [h4] at hx
    · simp [hf] at hx
    · simp [h4] at hx
    · have hs : statusIdle s.params.pollMode (s.word kbsr) = 1 := by rw [h1, h2]; rfl
      refine ⟨pollIdle s, by rw [e, hs], fun a => ?_, h2, h3, ?_⟩
      · by_cases ha : a = kbsr
        · rw [ha, pollIdle_kbsr, hs]
        · rw [pollIdle_word s ha]; exact h1 a
      · simp [pollIdle, withConsole, Console.polled, Console.after, h4]
  · exact ⟨s, by rw [memRead_ordinary s hp, h1], h1, h2, h3, h4⟩

theorem stringLoop_allOnes (n : Nat) (p : Word) {s : State} (h : AllOnes s) :
    ∃ q t, AllOnes t ∧ ∀ atEnd, stringLoop putsChars atEnd n p s = atEnd q t := by
  induction n generalizing p s with
  | zero => exact ⟨p, s, h, fun _ => rfl⟩
  | succ n ih =>
    obtain ⟨t, e, ht⟩ := memRead_allOnes p h
    have hw : consoleWriteAll (putsChars 1) t =
        .done () { t with console := { t.console with output := t.console.output ++ [1] } } := by
      simp [putsChars, consoleWriteAll, consoleWrite, Console.answer, ht.2.2.2, Result.andThen, lowByte]
    obtain ⟨q, u, hu, hl⟩ := ih (p + 1) (s := { t with console := { t.console with output := t.console.output ++ [1] } })
      ⟨ht.1, ht.2.1, ht.2.2.1, ht.2.2.2⟩
    refine ⟨q, u, hu, fun atEnd => ?_⟩
    rw [stringLoop, e]
    simp only [Result.andThen, if_neg (show (1 : Word) ≠ 0 by decide), hw]
    exact hl atEnd

theorem putsFrom_allOnes_held (p : Word) {s : State} (h : AllOnes s) : (putsFrom p s).held ≠ none := by
  obtain ⟨q, t, ht, hl⟩ := stringLoop_allOnes 65536 p h
  obtain ⟨q2, t2, -, hl2⟩ := stringLoop_allOnes (stringBound t.console) q ht
  rw [putsFrom, stringService, hl, hl2]
  exact fun h => by cases h

/-- Every word is 1, no character is unread, nothing is held, and the console answers `k` more operations. -/
def OnesFailing (k : Nat) (s : State) : Prop :=
  (∀ a : Word, s.word a = 1) ∧ s.params.pollMode = .bit15Only ∧ s.console.input = [] ∧ s.held = none ∧
  s.console.failAfter = some k

theorem memRead_onesFailing (p : Word) {k : Nat} {s : State} (h : OnesFailing k s) :
    memRead p s = .stopped (raiseFatal .ioFailure s) ∨ ∃ t j, memRead p s = .done 1 t ∧ OnesFailing j t ∧ j ≤ k := by
  obtain ⟨h1, h2, h3, h4, h5⟩ := h
  have hn : s.console.findsKey = false := by simp [Console.findsKey, h3]
  by_cases hp : p = kbsr
  · subst hp
    rcases memRead_kbsr_cases s with ⟨-, e⟩ | ⟨-, hx, -⟩ | ⟨-, hx, -⟩ | ⟨-, -, e⟩
    · exact .inl e
    · simp [hn] at hx
    · simp [hn] at hx
    · have hs : statusIdle s.params.pollMode (s.word kbsr) = 1 := by rw [h1, h2]; rfl
      refine .inr ⟨pollIdle s, k - 1, by rw [e, hs], ⟨fun a => ?_, h2, h3, h4, ?_⟩, Nat.sub_le k 1⟩
      · by_cases ha : a = kbsr
        · rw [ha, pollIdle_kbsr, hs]
        · rw [pollIdle_word s ha]; exact h1 a
      · simp [pollIdle, withConsole, Console.polled, Console.after, h5]
  · exact .inr ⟨s, k, by rw [memRead_ordinary s hp, h1], ⟨h1, h2, h3, h4, h5⟩, le_rfl⟩

/-- In a memory of ones each word takes one operation at least, until the console fails. -/
theorem stringLoop_onesFailing (n : Nat) (p : Word) {k : Nat} {s : State} (h : OnesFailing k s) :
    (∃ t, t.held = none ∧ ∀ atEnd, stringLoop putsChars atEnd n p s = .stopped (raiseFatal .ioFailure t)) ∨
    ∃ q t j, OnesFailing j t ∧ j + n ≤ k ∧ ∀ atEnd, stringLoop putsChars atEnd n p s = atEnd q t := by
  induction n generalizing p s k with
  | zero => exact .inr ⟨p, s, k, h, le_rfl, fun _ => rfl⟩
  | succ n ih =>
    rcases memRead_onesFailing p h with e | ⟨t, j, e, ht, hj⟩
    · exact .inl ⟨s, h.2.2.2.1, fun atEnd => by rw [stringLoop, e]; rfl⟩
    · have hl : ∀ atEnd, stringLoop putsChars atEnd (n + 1) p s =
          (consoleWrite 1 t).andThen fun _ u => stringLoop putsChars atEnd n (p + 1) u := fun atEnd => by
        have hc : consoleWriteAll (putsChars 1) t = consoleWrite 1 t := by
          change (consoleWrite 1 t).andThen (fun _ u => .done () u) = consoleWrite 1 t
          cases consoleWrite 1 t <;> rfl
        rw [stringLoop, e, ← hc]
        rfl
      rcases consoleWrite_cases 1 t with ⟨-, e'⟩ | ⟨ha, e'⟩
      · exact .inl ⟨t, ht.2.2.2.1, fun atEnd => by rw [hl, e']; rfl⟩
      · have hj1 := ha j ht.2.2.2.2
        have hw : OnesFailing (j - 1) { t with console := { t.console.after 1 with output := t.console.output ++ [1] } } :=
          ⟨ht.1, ht.2.1, ht.2.2.1, ht.2.2.2.1, by simp [Console.after, ht.2.2.2.2]⟩
        rcases ih (p + 1) hw with
          ⟨u, hu, hl'⟩ | ⟨q, u, i, hu, hi, hl'⟩
        · exact .inl ⟨u, hu, fun atEnd => by rw [hl, e', ← hl' atEnd]; rfl⟩
        · exact .inr ⟨q, u, i, hu, by omega, fun atEnd => by rw [hl, e', ← hl' atEnd]; rfl⟩

/-- With a console that fails after 70,000 operations, PUTS reads past one round of memory and ends FAULTED in the same
step, with nothing held (R15). -/
theorem test_puts_past_a_round_ends_faulted :
    ∃ t, exec .puts { onesState none with console := { Console.reset with failAfter := some 70000 } } = .next t ∧
      t.run = .faulted .ioFailure ∧ t.held = none := by
  refine ⟨_, rfl, ?_⟩
  have h : OnesFailing 70000 { onesState none with console := { Console.reset with failAfter := some 70000 } } :=
    ⟨(onesState_allOnes none).1, rfl, rfl, rfl, rfl⟩
  rw [putsFrom, stringService]
  rcases stringLoop_onesFailing 65536 _ h with ⟨t, ht, hl⟩ | ⟨q, t, j, ht, -, hl⟩ <;> rw [hl]
  · exact ⟨rfl, ht⟩
  · rcases stringLoop_onesFailing (stringBound t.console) q ht with ⟨u, hu, hl⟩ | ⟨_, _, _, _, hk, _⟩
    · rw [hl]; exact ⟨rfl, hu⟩
    · simp only [stringBound, ht.2.2.2.2] at hk
      omega

/-- A core with a string service held at an address of zeroed memory. -/
def resumed (h : Held) : State := { State.reset with held := some h }

/-- First and resumed steps that end the string, and ones that are left held. -/
theorem witness_StringServicesAreTheLoopOfTheSpec :
    (∃ t, State.reset.held = none ∧ exec .puts State.reset = .next t ∧ t.held = none) ∧
    (∃ t, State.reset.held = none ∧ exec .putsp State.reset = .next t ∧ t.held = none) ∧
    (∃ t, (onesState none).held = none ∧ exec .puts (onesState none) = .next t ∧ t.held ≠ none) ∧
    (∃ t, (resumed (.putsAt 0xFE00)).run = .running ∧ step (resumed (.putsAt 0xFE00)) = .next t ∧ t.held = none) ∧
    (∃ t, (resumed (.putspAt 0xFFFF)).run = .running ∧ step (resumed (.putspAt 0xFFFF)) = .next t ∧ t.held = none) ∧
    (∃ t, step (onesState (some (.putsAt 0x4000))) = .next t ∧ t.held ≠ none) := by
  refine ⟨⟨_, rfl, rfl, by decide⟩, ⟨_, rfl, rfl, by decide⟩, ⟨_, rfl, rfl, ?_⟩, ⟨_, rfl, rfl, by decide⟩,
    ⟨_, rfl, rfl, by decide⟩, ⟨_, rfl, ?_⟩⟩
  · exact putsFrom_allOnes_held _ (onesState_allOnes none)
  · exact putsFrom_allOnes_held 0x4000 (onesState_allOnes none)

theorem witness_UnendingStringNeverCompletes : Unending (onesState (some (.putsAt 0x4000))) := by
  obtain ⟨h1, h2, h3, h4⟩ := onesState_allOnes (some (.putsAt 0x4000))
  exact ⟨rfl, ⟨0x4000, .inl rfl⟩, fun a => by rw [h1]; decide, by rw [h1]; decide, h2, h3, h4⟩

theorem witness_UnendingStringNeverCompletes_putsp : Unending (onesState (some (.putspAt 0xFE00))) := by
  obtain ⟨h1, h2, h3, h4⟩ := onesState_allOnes (some (.putspAt 0xFE00))
  exact ⟨rfl, ⟨0xFE00, .inr rfl⟩, fun a => by rw [h1]; decide, by rw [h1]; decide, h2, h3, h4⟩

/-- A core with a step held and no input, whose console answers `n` more operations. -/
def waiting (h : Held) (n : Nat) : State := { withTyped (failingIdle n) with held := some h }

theorem witness_HeldInputWaitsForACharacter :
    ((withTyped (failingIdle 1)).console.input = [] ∧ Answers 1 (withTyped (failingIdle 1)).console) ∧
    ((waiting .inRead 1).run = .running ∧
      ((waiting .inRead 1).held = some .getcRead ∨ (waiting .inRead 1).held = some .inRead) ∧
      (waiting .inRead 1).console.input = [] ∧ Answers 1 (waiting .inRead 1).console) ∧
    ((waiting .getcRead 0).run = .running ∧
      ((waiting .getcRead 0).held = some .getcRead ∨ (waiting .getcRead 0).held = some .inRead) ∧
      (waiting .getcRead 0).console.failAfter = some 0) ∧
    ((waiting .getcRead 1).held = some .getcRead ∧ Answers 1 (waiting .getcRead 1).console) ∧
    ((waiting .inRead 3).run = .running ∧ (waiting .inRead 3).held = some .inRead ∧
      (waiting .inRead 3).console.input = [] ∧ Answers 3 (waiting .inRead 3).console) ∧
    (∃ t, (rig [(0x3000, 0xF020)] RegFile.reset).run = .running ∧ step (rig [(0x3000, 0xF020)] RegFile.reset) = .next t ∧
      (t.held = some .getcRead ∨ t.held = some .inRead)) :=
  ⟨⟨rfl, (answers_boundary 1).2⟩, ⟨rfl, .inr rfl, rfl, (answers_boundary 1).2⟩, ⟨rfl, .inl rfl, rfl⟩,
    ⟨rfl, (answers_boundary 1).2⟩, ⟨rfl, rfl, rfl, (answers_boundary 3).2⟩, _, rfl, rfl, by decide⟩

/-- A fetch at an ordinary PC, at KBSR, and at KBSR with a failing console. -/
theorem witness_StepRunsTheDecodedInstruction :
    (State.reset.run = .running ∧ State.reset.held = none ∧ State.reset.pc ≠ kbsr) ∧
    (∃ ir s1, memRead 0xFE00 { device (typed [0x41] [true]) with pc := 0xFE00 + 1 } = .done ir s1) ∧
    (∃ s1, memRead 0xFE00 { device (failing 0) with pc := 0xFE00 + 1 } = .stopped s1) :=
  ⟨by decide, ⟨_, _, rfl⟩, ⟨_, rfl⟩⟩

theorem witness_StoppedCoreDoesNotChange :
    ({ State.reset with run := .halted } : State).run ≠ .running ∧
    ({ State.reset with run := .faulted .ioFailure } : State).run ≠ .running := by decide

/-- The invariant in a state with memory listed and a step held, and a step from it. -/
theorem witness_EveryStepKeepsTheInvariant :
    Inv { waiting .getcRead 1 with mem := [(0, 1), (0xFFFF, 2)] } ∧
    ∃ t, step { waiting .getcRead 1 with mem := [(0, 1), (0xFFFF, 2)] } = .next t :=
  ⟨⟨by decide, fun _ => rfl⟩, _, rfl⟩

/-- Each way to stop: HALT, RTI, an undefined vector, a failing fetch, and a failing held step. -/
theorem witness_CoreStopsInTwoWaysOnly :
    (∃ t, step (rig [(0x3000, 0xF025)] RegFile.reset) = .next t ∧ t.run ≠ .running) ∧
    (∃ t, step (rig [(0x3000, 0x8000)] RegFile.reset) = .next t ∧ t.run ≠ .running) ∧
    (∃ t, step (rig [(0x3000, 0xF026)] RegFile.reset) = .next t ∧ t.run ≠ .running) ∧
    (∃ t, step { device (failing 0) with pc := 0xFE00 } = .next t ∧ t.run ≠ .running) ∧
    (∃ t, step (waiting .inRead 0) = .next t ∧ t.run ≠ .running) :=
  ⟨⟨_, rfl, by decide⟩, ⟨_, rfl, by decide⟩, ⟨_, rfl, by decide⟩, ⟨_, rfl, by decide⟩, ⟨_, rfl, by decide⟩⟩

theorem witness_FatalConditionsArePrecise :
    (∃ t, step (rig [(0xFFFF, 0xD000)] RegFile.reset) = .next t) ∧
    (∃ t, State.reset.held = none ∧ step (rig [(0x3000, 0xD000)] RegFile.reset) = .next t ∧
      t.run = .faulted .illegalOpcode) ∧
    (∃ t, step { rig [(0x3000, 0xF023)] RegFile.reset with console := failing 5 } = .next t ∧
      t.run = .faulted .ioFailure) :=
  ⟨⟨_, rfl⟩, ⟨_, rfl, rfl, by decide⟩, ⟨_, rfl, by decide⟩⟩

theorem witness_OnlyTheListedRegisterIsWritten :
    ∃ t, exec (.jsr 0) State.reset = .next t ∧ writesReg (.jsr 0) ≠ some .r6 := ⟨_, rfl, by decide⟩

theorem witness_PcAfterEachInstruction : ∃ t, exec (.jsrr .r7) State.reset = .next t := ⟨_, rfl⟩

/-- A non-store and a held step that do not poll, and a read that does. -/
theorem witness_OnlyStoresAndPollsChangeMemory :
    (∃ t, exec .halt State.reset = .next t ∧ noAccess .halt = true) ∧
    (∃ t, exec .puts State.reset = .next t ∧ isStore .puts = false ∧ t.console.polls = State.reset.console.polls ∧
      (0xFE01 : Word) ≠ kbsr ∧ (0xFE01 : Word) ≠ kbdr) ∧
    (resumeHeld (.putsAt 0xFE01) (resumed (.putsAt 0xFE01))).console.polls =
      (resumed (.putsAt 0xFE01)).console.polls ∧
    (∃ v t, memRead 0xFE00 (device (typed [0x41] [true])) = .done v t ∧
      t.console.polls ≠ (device (typed [0x41] [true])).console.polls) ∧
    (∃ t, memRead 0xFE00 (device (failing 1)) = .stopped t ∧
      t.console.polls ≠ (device (failing 1)).console.polls) :=
  ⟨⟨_, rfl, rfl⟩, ⟨_, rfl, rfl, by decide, by decide, by decide⟩, by decide, ⟨_, _, rfl, by decide⟩, ⟨_, rfl, by decide⟩⟩

theorem witness_ConsoleIsReadInOrderAndOnlyAppendedTo :
    ∃ t, step { rig [(0x3000, 0xF023)] RegFile.reset with console := typed [0x41, 0x42] [] } = .next t ∧
      t.console.input = [0x42] := ⟨_, rfl, by decide⟩

theorem witness_StoreToTheNextAddressIsExecutedNext :
    State.reset.run = .running ∧ State.reset.held = none ∧
    (rig [(0x3000, 0x3200)] (low4 0 0xF025 0 0)).pc ≠ kbsr ∧ (rig [(0x3000, 0x3200)] (low4 0 0xF025 0 0)).pc + 1 ≠ kbsr ∧
    decode ((rig [(0x3000, 0x3200)] (low4 0 0xF025 0 0)).word (rig [(0x3000, 0x3200)] (low4 0 0xF025 0 0)).pc) =
      .st .r1 0 := by decide

theorem witness_FetchFromKbsrExecutesTheUpdatedWord :
    (({ withTyped (failing 2) with pc := 0xFE00 } : State).word kbsr &&& 0x7FFF = 0 ∧
      (failing 2).input = 0x41 :: [0x42, 0x43] ∧ (failing 2).findsKey = true ∧ Answers 2 (failing 2)) ∧
    (({ rig [(0xFE00, 0x8000)] RegFile.reset with pc := 0xFE00, console := failingIdle 1 } : State).word kbsr &&& 0x7FFF = 0 ∧
      (failingIdle 1).findsKey = false ∧ Answers 1 (failingIdle 1)) :=
  ⟨⟨by decide, rfl, rfl, (answers_boundary 2).1⟩, ⟨by decide, rfl, (answers_boundary 1).2⟩⟩

/-- An image that ends at 0xFFFF and has words past it. -/
theorem witness_LoaderCopiesTheImageFromItsOrigin :
    imageWords [0xFF, 0xFF, 0x12, 0x34, 0x56, 0x78] = some (0xFFFF :: [0x1234, 0x5678]) ∧
    imageWords [0x30, 0x00] = some (0x3000 :: []) ∧ [0x30, (0x00 : Byte)].length % 2 = 0 ∧ 0 < [(0x3000 : Word)].length ∧
    [(0x30 : Byte)].length % 2 = 1 := by decide

theorem witness_FetchWordIsRunByTheNextStep : State.reset.pc ≠ kbsr ∧ 0xFFFF < 65536 := by decide

end Sys2Proof.Tests
end

section
/-! PROOFS. The scope (00_scope.md): every step has a next state, sign extension and `setcc`, the console's order, the
wait for a character, and the string services against the spec's loop. -/

namespace Sys2Proof.Machine

/-! ### Every step has a next state -/

theorem exec_next (i : Instr) (s : State) : ∃ t, exec i s = .next t := by
  cases i <;> exact ⟨_, rfl⟩

theorem fetchAndRun_next (s : State) : ∃ t, fetchAndRun s = .next t := by
  rcases fetch_cases s with ⟨ir, s1, h, -⟩ | ⟨s1, h, -⟩
  · rw [fetchAndRun_done h]
    exact exec_next (decode ir) s1
  · exact ⟨s1, fetchAndRun_stopped h⟩

theorem step_next (s : State) : ∃ t, step s = .next t := by
  by_cases hr : s.run = .running
  · cases hh : s.held with
    | some h => exact ⟨_, step_held hr hh⟩
    | none => exact step_fetches hr hh ▸ fetchAndRun_next s
  · exact ⟨s, step_stopped hr⟩

/-- Settles O46: no arm of `exec` faults or refuses, and a step is a stopped core, a held step, a failed fetch or an
instruction. -/
theorem everyStepHasANextState : Obligations.EveryStepHasANextState := ⟨exec_next, step_next⟩

/-! ### Sign extension -/

theorem sext_getLsbD {n : Nat} (v : BitVec n) (k : Nat) :
    (sext v).getLsbD k = (decide (k < 16) && if k < n then v.getLsbD k else v.getLsbD (n - 1)) := by
  rw [sext, BitVec.getLsbD_signExtend, BitVec.msb_eq_getLsbD_last]

theorem sext_toNat {n : Nat} (hn : n ≤ 16) (v : BitVec n) :
    (sext v).toNat = v.toNat + if v.getLsbD (n - 1) then 65536 - 2 ^ n else 0 := by
  rw [sext, BitVec.toNat_signExtend, BitVec.toNat_setWidth_of_le hn, BitVec.msb_eq_getLsbD_last]

/-- The masked form of R9, bit by bit: the low bits are the field's, and the upper ones are all 1. -/
theorem sext_toNat_mask {n : Nat} (v : BitVec n) (hs : v.getLsbD (n - 1) = true) :
    (sext v).toNat = (v.toNat ||| (0xFFFF <<< n)) &&& 0xFFFF := by
  apply Nat.eq_of_testBit_eq
  intro k
  have hones : ∀ j, Nat.testBit 0xFFFF j = decide (j < 16) := Nat.testBit_two_pow_sub_one 16
  rw [BitVec.testBit_toNat, sext_getLsbD, Nat.testBit_and, Nat.testBit_or, Nat.testBit_shiftLeft, hones, hones,
    BitVec.testBit_toNat]
  by_cases hk : k < n
  · simp [hk, Nat.not_le.mpr hk, Bool.and_comm]
  · have hlow : v.getLsbD k = false := BitVec.getLsbD_of_ge v k (Nat.le_of_not_lt hk)
    by_cases h16 : k < 16
    · have hshift : n ≤ k ∧ k - n < 16 := by omega
      simp [hk, hs, h16, hlow, hshift]
    · simp [h16]

theorem signExtends_of_le {n : Nat} (hn : n ≤ 16) : SignExtends n := by
  intro v
  refine ⟨fun hs => ?_, fun hs => ?_, sext_toNat_mask v, fun k hk => ?_, fun k hk h16 => ?_⟩
  · simp [sext_toNat hn, hs]
  · simp [sext_toNat hn, hs]
  · rw [sext_getLsbD, decide_eq_true (hk.trans_le hn), Bool.true_and, if_pos hk]
  · rw [sext_getLsbD, decide_eq_true h16, Bool.true_and, if_neg (Nat.not_lt.mpr hk)]

/-- Settles O7: R9 holds of every width up to 16. -/
theorem signExtensionOfAllFourWidths : Obligations.SignExtensionOfAllFourWidths :=
  ⟨signExtends_of_le (by decide), signExtends_of_le (by decide), signExtends_of_le (by decide),
    signExtends_of_le (by decide)⟩

/-! ### `setcc` -/

theorem condOf_zero : condOf 0 = .zero := rfl

theorem msb_eq_bit15 (v : Word) : v.msb = v.getLsbD 15 := BitVec.msb_eq_getLsbD_last v

theorem condOf_negative {v : Word} (h : v.getLsbD 15 = true) : condOf v = .negative := by
  have h0 : v ≠ 0 := fun h0 => by simp [h0] at h
  rw [condOf, if_neg h0, msb_eq_bit15, if_pos h]

theorem condOf_positive {v : Word} (h0 : v ≠ 0) (h : v.getLsbD 15 = false) : condOf v = .positive := by
  rw [condOf, if_neg h0, msb_eq_bit15, h, if_neg Bool.false_ne_true]

/-- Settles O8, by the three cases of the sign; a register just written reads as the value written. -/
theorem setccFollowsTheSignOfTheValue : Obligations.SetccFollowsTheSignOfTheValue := by
  refine ⟨fun v s => ⟨fun h => ?_, condOf_negative, condOf_positive, rfl⟩, fun dr v s => ?_⟩
  · rw [h, setcc_cond, condOf_zero]
  · rw [writeReg_reg_same, writeRegCC]

/-! ### What a step does to the console, and where it waits for a character -/

/-- The console is read in order and only appended to, the parameters stay, and whoever comes to wait for a character
found none unread. -/
structure UsesConsole (s t : State) : Prop where
  input : ∃ taken, s.console.input = taken ++ t.console.input
  output : ∃ written, t.console.output = s.console.output ++ written
  params : t.params = s.params
  waits : t.held = some .getcRead ∨ t.held = some .inRead →
    t.held = s.held ∨ (t.console.input = [] ∧ t.run = s.run)

theorem Quiet.usesConsole {s t : State} (h : Quiet s t) (hh : t.held = s.held) : UsesConsole s t :=
  ⟨h.input, h.output, h.params, fun _ => .inl hh⟩

theorem GoesOn.usesConsole {s t : State} (h : GoesOn s t) : UsesConsole s t := h.toQuiet.usesConsole h.held

theorem Fails.usesConsole {s t : State} (h : Fails s t) : UsesConsole s t := h.toQuiet.usesConsole h.held

/-- What neither touches the console nor holds the step. -/
theorem UsesConsole.of_same {s t : State} (hc : t.console = s.console) (hp : t.params = s.params)
    (hh : t.held = s.held) : UsesConsole s t :=
  ⟨⟨[], by rw [hc]; rfl⟩, ⟨[], by rw [hc, List.append_nil]⟩, hp, fun _ => .inl hh⟩

theorem UsesConsole.after_goesOn {s t u : State} (hg : GoesOn s t) (h : UsesConsole t u) : UsesConsole s u where
  input := by
    obtain ⟨x, hx⟩ := hg.input; obtain ⟨y, hy⟩ := h.input
    exact ⟨x ++ y, by rw [hx, hy, List.append_assoc]⟩
  output := by
    obtain ⟨x, hx⟩ := hg.output; obtain ⟨y, hy⟩ := h.output
    exact ⟨x ++ y, by rw [hy, hx, List.append_assoc]⟩
  params := h.params.trans hg.params
  waits := fun hw => (h.waits hw).imp (·.trans hg.held) (And.imp_right (·.trans hg.run))

theorem Result.Plain.finish_usesConsole {α : Type} {s : State} {r : Result α} {k : α → State → State}
    (h : r.Plain s) (hk : ∀ a t, UsesConsole t (k a t)) : UsesConsole s (r.finish k) := by
  rcases h with ⟨a, t, rfl, hg⟩ | ⟨t, rfl, hf⟩
  · exact (hk a t).after_goesOn hg
  · exact hf.usesConsole

theorem loadInto_usesConsole (dr : Reg) (a : Word) (s : State) : UsesConsole s (loadInto dr a s) :=
  (memRead_plain a s).finish_usesConsole fun _ _ => .of_same rfl rfl rfl

theorem holdAt_usesConsole {q : Held} {s : State} (h : q = .getcRead ∨ q = .inRead → s.console.input = []) :
    UsesConsole s (holdAt q s) :=
  ⟨⟨[], rfl⟩, ⟨[], (List.append_nil _).symm⟩, rfl,
    fun hw => .inr ⟨h (hw.imp Option.some.inj Option.some.inj), rfl⟩⟩

theorem consoleRead_finish_usesConsole {k : Byte → State → State} (q : Held) (s : State)
    (hk : ∀ ch t, UsesConsole t (k ch t)) : UsesConsole s ((consoleRead (holdAt q) s).finish k) := by
  rcases consoleRead_cases (holdAt q) s with ⟨hf, e⟩ | ⟨-, hi, e⟩ | ⟨-, ch, rest, -, e⟩
  · rw [e]; exact (fails_of_failAfter hf).usesConsole
  · rw [e]; exact holdAt_usesConsole fun _ => hi
  · rw [e]; exact (hk ch _).after_goesOn (consoleRead_goesOn e)

theorem andThen_finish {α β : Type} (r : Result α) (g : α → State → Result β) (k : β → State → State) :
    (r.andThen g).finish k = r.finish fun a t => (g a t).finish k := by
  cases r <;> rfl

theorem getcRead_usesConsole (s : State) : UsesConsole s (getcRead s) :=
  consoleRead_finish_usesConsole _ s fun _ _ => .of_same rfl rfl rfl

theorem inRead_usesConsole (s : State) : UsesConsole s (inRead s) := by
  rw [inRead, andThen_finish]
  refine consoleRead_finish_usesConsole _ s fun ch t => ?_
  refine Result.Plain.finish_usesConsole ?_ fun _ _ => .of_same rfl rfl rfl
  exact (consoleWrite_plain ch t).andThen fun _ t2 _ => (consoleFlush_plain t2).andThen fun _ t3 _ => plain_done ch t3

theorem inTrap_usesConsole (s : State) :
    UsesConsole s (((consoleWriteAll s.params.inPrompt s).andThen fun _ s1 => consoleFlush s1).finish
      fun _ s2 => inRead s2) :=
  ((consoleWriteAll_plain _ s).andThen fun _ t _ => consoleFlush_plain t).finish_usesConsole
    fun _ t => inRead_usesConsole t

theorem out_usesConsole (s : State) :
    UsesConsole s ((consoleWrite (lowByte (s.reg .r0)) s).andThen fun _ s1 => consoleFlush s1).state :=
  ((consoleWrite_plain _ s).andThen fun _ t _ => consoleFlush_plain t).finish_usesConsole
    fun _ _ => .of_same rfl rfl rfl

theorem stringService_usesConsole (chars : Word → List Byte) {resumeAt : Word → Held} (p : Word) (s : State)
    (hq : ∀ q, ¬(resumeAt q = .getcRead ∨ resumeAt q = .inRead)) :
    UsesConsole s (stringService chars resumeAt p s).state := by
  rcases stringService_ends chars resumeAt p s with h | ⟨q, t, hg, e⟩
  · exact h.finish_usesConsole fun _ _ => .of_same rfl rfl rfl
  · rw [e]; exact (holdAt_usesConsole fun h => absurd h (hq q)).after_goesOn hg

theorem putsFrom_usesConsole (p : Word) (s : State) : UsesConsole s (putsFrom p s) :=
  stringService_usesConsole _ p s (by simp)

theorem putspFrom_usesConsole (p : Word) (s : State) : UsesConsole s (putspFrom p s) :=
  stringService_usesConsole _ p s (by simp)

theorem exec_usesConsole {i : Instr} {s t : State} (h : exec i s = .next t) : UsesConsole s t := by
  cases i <;> injection h with h <;> subst h
  case ld => exact loadInto_usesConsole _ _ s
  case ldr => exact loadInto_usesConsole _ _ s
  case ldi => exact (memRead_plain _ s).finish_usesConsole fun p t => loadInto_usesConsole _ p t
  case sti => exact (memRead_plain _ s).finish_usesConsole fun _ _ => .of_same rfl rfl rfl
  case br => split <;> exact .of_same rfl rfl rfl
  case getc => exact getcRead_usesConsole s
  case out => exact out_usesConsole s
  case puts => exact putsFrom_usesConsole _ s
  case inTrap => exact inTrap_usesConsole s
  case putsp => exact putspFrom_usesConsole _ s
  all_goals exact .of_same rfl rfl rfl

theorem resumeHeld_usesConsole (h : Held) (s : State) : UsesConsole { s with held := none } (resumeHeld h s) := by
  cases h with
  | getcRead => exact getcRead_usesConsole _
  | inRead => exact inRead_usesConsole _
  | putsAt p => exact putsFrom_usesConsole p _
  | putspAt p => exact putspFrom_usesConsole p _

theorem UsesConsole.of_pcPast {s t : State} (hh : s.held = none) (h : UsesConsole (pcPast s) t) :
    UsesConsole { s with held := none } t :=
  ⟨h.input, h.output, h.params, fun hw => (h.waits hw).imp_left (·.trans hh)⟩

/-- A step of a running core takes up what was held: its effects begin with nothing held. -/
theorem step_usesConsole {s t : State} (hr : s.run = .running) (h : step s = .next t) :
    UsesConsole { s with held := none } t := by
  rcases step_cases h with ⟨hs, -⟩ | ⟨-, q, -, rfl⟩ | ⟨-, hh, hf⟩ | ⟨-, hh, ir, s1, -, hg, he⟩
  · exact absurd hr hs
  · exact resumeHeld_usesConsole q s
  · exact hf.usesConsole.of_pcPast hh
  · exact ((exec_usesConsole he).after_goesOn hg).of_pcPast hh

/-- Settles O56: a stopped core's step changes nothing, and any other step only uses the console. -/
theorem consoleIsReadInOrderAndOnlyAppendedTo : Obligations.ConsoleIsReadInOrderAndOnlyAppendedTo := by
  intro s t h
  by_cases hr : s.run = .running
  · have hu := step_usesConsole hr h
    exact ⟨hu.input, hu.output, hu.params⟩
  · rw [step_stopped hr] at h
    cases h
    exact ⟨⟨[], rfl⟩, ⟨[], (List.append_nil _).symm⟩, rfl⟩

/-! ### Waiting for a character -/

theorem consoleRead_fails {waiting : State → State} {s : State} (h : s.console.failAfter = some 0) :
    consoleRead waiting s = .stopped (raiseFatal .ioFailure s) := by
  simp [consoleRead, answer_fails h]

theorem consoleRead_waits {waiting : State → State} {s : State} (hi : s.console.input = [])
    (h : Answers 1 s.console) : consoleRead waiting s = .stopped (waiting s) := by
  simp [consoleRead, answer_of_answers h, hi]

theorem consoleRead_takes {waiting : State → State} {s : State} {ch : Byte} {rest : List Byte}
    (hi : s.console.input = ch :: rest) (h : Answers 1 s.console) :
    consoleRead waiting s = .done ch (withConsole { s.console.after 1 with input := rest } s) := by
  simp [consoleRead, answer_of_answers h, hi, withConsole]

theorem consoleWrite_answered {ch : Byte} {s : State} (h : Answers 1 s.console) :
    consoleWrite ch s =
      .done () (withConsole { s.console.after 1 with output := s.console.output ++ [ch] } s) := by
  simp [consoleWrite, answer_of_answers h, withConsole]

theorem consoleFlush_answered {s : State} (h : Answers 1 s.console) :
    consoleFlush s = .done () (withConsole (s.console.after 1) s) := by
  simp [consoleFlush, answer_of_answers h, withConsole]

theorem getcRead_fails {s : State} (h : s.console.failAfter = some 0) : getcRead s = raiseFatal .ioFailure s := by
  rw [getcRead, consoleRead_fails h, finish_stopped]

theorem inRead_fails {s : State} (h : s.console.failAfter = some 0) : inRead s = raiseFatal .ioFailure s := by
  rw [inRead, consoleRead_fails h, andThen_stopped, finish_stopped]

theorem getcRead_waits {s : State} (hi : s.console.input = []) (h : Answers 1 s.console) :
    getcRead s = holdAt .getcRead s := by
  rw [getcRead, consoleRead_waits hi h, finish_stopped]

theorem inRead_waits {s : State} (hi : s.console.input = []) (h : Answers 1 s.console) :
    inRead s = holdAt .inRead s := by
  rw [inRead, consoleRead_waits hi h, andThen_stopped, finish_stopped]

theorem getcRead_takes {s : State} {ch : Byte} {rest : List Byte} (hi : s.console.input = ch :: rest)
    (h : Answers 1 s.console) :
    getcRead s = writeReg .r0 (zext8 ch) (withConsole { s.console.after 1 with input := rest } s) := by
  rw [getcRead, consoleRead_takes hi h, finish_done]

/-- IN takes three answers: the read, the echo, and the flush. -/
theorem inRead_takes {s : State} {ch : Byte} {rest : List Byte} (hi : s.console.input = ch :: rest)
    (h : Answers 3 s.console) :
    inRead s = writeReg .r0 (zext8 ch)
      (withConsole { s.console.after 3 with input := rest, output := s.console.output ++ [ch] } s) := by
  have h1 : Answers 1 (s.console.after 1) := answers_mono (answers_after (n := 1) (m := 2) h) (by decide)
  have h2 : Answers 1 ((s.console.after 1).after 1) := answers_after (n := 1) (answers_after (n := 1) (m := 2) h)
  rw [inRead, consoleRead_takes hi (answers_mono h (by decide)), andThen_done, consoleWrite_answered h1, andThen_done,
    consoleFlush_answered h2, andThen_done, finish_done, ← after_after 2 1, ← after_after 1 1]
  rfl

/-- Holding a step again where it was held changes nothing. -/
theorem holdAt_again {s : State} {q : Held} (h : s.held = some q) : holdAt q { s with held := none } = s := by
  rw [holdAt, ← h]

theorem step_held_getc {s : State} (hr : s.run = .running) (hh : s.held = some .getcRead) :
    step s = .next (getcRead { s with held := none }) := step_held hr hh

theorem step_held_in {s : State} (hr : s.run = .running) (hh : s.held = some .inRead) :
    step s = .next (inRead { s with held := none }) := step_held hr hh

theorem step_held_read_waits {s : State} (hr : s.run = .running)
    (hh : s.held = some .getcRead ∨ s.held = some .inRead) (hi : s.console.input = []) (ha : Answers 1 s.console) :
    step s = .next s := by
  rcases hh with hh | hh
  · rw [step_held_getc hr hh, getcRead_waits (s := { s with held := none }) hi ha, holdAt_again hh]
  · rw [step_held_in hr hh, inRead_waits (s := { s with held := none }) hi ha, holdAt_again hh]

theorem step_held_read_fails {s : State} (hr : s.run = .running)
    (hh : s.held = some .getcRead ∨ s.held = some .inRead) (hf : s.console.failAfter = some 0) :
    step s = .next (raiseFatal .ioFailure { s with held := none }) := by
  rcases hh with hh | hh
  · rw [step_held_getc hr hh, getcRead_fails (s := { s with held := none }) hf]
  · rw [step_held_in hr hh, inRead_fails (s := { s with held := none }) hf]

/-- A step that ends held at a read found no character unread: it began with nothing held. -/
theorem step_ends_waiting {s t : State} (hr : s.run = .running) (h : step s = .next t)
    (hw : t.held = some .getcRead ∨ t.held = some .inRead) : t.console.input = [] ∧ t.run = .running := by
  rcases (step_usesConsole hr h).waits hw with hn | ⟨hi, hrun⟩
  · simp [hn] at hw
  · exact ⟨hi, hrun.trans hr⟩

theorem deliverInput_input {s : State} (hi : s.console.input = []) (ch : Byte) :
    (deliverInput [ch] s).console.input = [ch] := by
  simp [deliverInput, hi]

/-- Settles O42: without a character the read waits or fails, with one it completes, and only a read that found no
character unread ends a step held. -/
theorem heldInputWaitsForACharacter : Obligations.HeldInputWaitsForACharacter := by
  refine ⟨fun s hi ha => congrArg Host.Outcome.next (getcRead_waits hi ha), fun s => step_held_read_waits,
    fun s => step_held_read_fails, fun s ch hr hh hi ha => ?_, fun s ch hr hh hi ha => ?_,
    fun s t => step_ends_waiting⟩
  · have he := getcRead_takes (s := { deliverInput [ch] s with held := none }) (deliverInput_input hi ch) ha
    exact ⟨_, (step_held_getc (s := deliverInput [ch] s) hr hh).trans (congrArg _ he), rfl, hr,
      writeReg_reg_same _ _ _, fun q hq => writeReg_reg_ne _ _ hq, rfl, rfl, rfl, rfl, rfl, rfl⟩
  · have he := inRead_takes (s := { deliverInput [ch] s with held := none }) (deliverInput_input hi ch) ha
    exact ⟨_, (step_held_in (s := deliverInput [ch] s) hr hh).trans (congrArg _ he), rfl, hr,
      writeReg_reg_same _ _ _, fun q hq => writeReg_reg_ne _ _ hq, rfl, rfl, rfl, rfl, rfl, rfl⟩

end Sys2Proof.Machine
end

section
/-! PROOFS. The string services are the loop of the spec (R154, R156, R161, decision D19): a word that is read and
written leads from one place of the loop to the next, and a bound's worth of such words means that the loop never
ends. -/

namespace Sys2Proof.Machine

/-! ### The loop past words that were read and written -/

theorem address_succ (p : Word) (n : Nat) : p + 1 + BitVec.ofNat 16 n = p + BitVec.ofNat 16 (n + 1) := by
  rw [BitVec.add_assoc, Nat.add_comm n 1, ← BitVec.ofNat_add_ofNat]
  rfl

theorem readsWord_goesOn {chars : Word → List Byte} {p : Word} {s t : State} (h : ReadsWord chars p s t) :
    GoesOn s t := by
  obtain ⟨w, s1, h1, -, h2⟩ := h
  rcases consoleWriteAll_plain (chars w) s1 with ⟨_, u, e, hg⟩ | ⟨u, e, -⟩ <;> cases e.symm.trans h2
  exact (memRead_done h1).trans hg

theorem readsWords_goesOn {chars : Word → List Byte} (n : Nat) {p : Word} {s t : State}
    (h : ReadsWords chars n p s t) : GoesOn s t := by
  induction n generalizing p s with
  | zero => cases h; exact GoesOn.refl _
  | succ n ih =>
    obtain ⟨u, h1, h2⟩ := h
    exact (readsWord_goesOn h1).trans (ih h2)

theorem readsWords_reaches {chars : Word → List Byte} (n : Nat) {p : Word} {s t : State}
    (h : ReadsWords chars n p s t) : StringReaches chars p s (p + BitVec.ofNat 16 n) t := by
  induction n generalizing p s with
  | zero => cases h; simpa using StringReaches.here p _
  | succ n ih =>
    obtain ⟨u, ⟨w, s1, h1, hw, h2⟩, h3⟩ := h
    exact .word h1 hw h2 (address_succ p n ▸ ih h3)

theorem StringReaches.trans {chars : Word → List Byte} {p q r : Word} {s t u : State}
    (h : StringReaches chars p s q t) (g : StringReaches chars q t r u) : StringReaches chars p s r u := by
  induction h with
  | here p s => exact g
  | word h1 hw h2 _ ih => exact .word h1 hw h2 (ih g)

/-- The spec's loop at one word (R154, R156): the read stops it, the word 0x0000 ends it, a write stops it, or it goes
on at the next address. -/
theorem stringRun_iff {chars : Word → List Byte} {p : Word} {s u : State} :
    StringRun chars p s u ↔
      memRead p s = .stopped u ∨ (∃ s1, memRead p s = .done 0 s1 ∧ u = (consoleFlush s1).state) ∨
      ∃ w s1, memRead p s = .done w s1 ∧ w ≠ 0 ∧
        (consoleWriteAll (chars w) s1 = .stopped u ∨
          ∃ s2, consoleWriteAll (chars w) s1 = .done () s2 ∧ StringRun chars (p + 1) s2 u) := by
  constructor
  · intro h
    cases h with
    | readStops h => exact .inl h
    | terminator h => exact .inr (.inl ⟨_, h, rfl⟩)
    | writeStops h hw h2 => exact .inr (.inr ⟨_, _, h, hw, .inl h2⟩)
    | again h hw h2 h3 => exact .inr (.inr ⟨_, _, h, hw, .inr ⟨_, h2, h3⟩⟩)
  · rintro (h | ⟨s1, h, rfl⟩ | ⟨w, s1, h, hw, h2 | ⟨s2, h2, h3⟩⟩)
    · exact .readStops h
    · exact .terminator h
    · exact .writeStops h hw h2
    · exact .again h hw h2 h3

/-- The loop goes on from behind a word it has read and written, and only so. -/
theorem readsWord_stringRun_iff {chars : Word → List Byte} {p : Word} {s t u : State} (h : ReadsWord chars p s t) :
    StringRun chars p s u ↔ StringRun chars (p + 1) t u := by
  obtain ⟨w, s1, h1, hw, h2⟩ := h
  have hw0 : ¬w = 0#16 := hw -- the form `simp` brings the zero word to
  rw [stringRun_iff, h1]
  simp [hw0, h2]

theorem readsWords_stringRun_iff {chars : Word → List Byte} (n : Nat) {p : Word} {s t u : State}
    (h : ReadsWords chars n p s t) : StringRun chars p s u ↔ StringRun chars (p + BitVec.ofNat 16 n) t u := by
  induction n generalizing p s with
  | zero => cases h; simp
  | succ n ih =>
    obtain ⟨v, h1, h2⟩ := h
    rw [readsWord_stringRun_iff h1, ih h2, address_succ]

/-- A loop that ends holds nothing. -/
theorem stringRun_held {chars : Word → List Byte} {p : Word} {s t : State} (h : StringRun chars p s t) :
    t.held = s.held := by
  induction h with
  | readStops h => exact (memRead_stopped h).2.held
  | @terminator p s s1 h =>
    rcases consoleFlush_plain s1 with ⟨_, _, e, hg⟩ | ⟨_, e, hf⟩ <;> rw [e]
    · exact ((memRead_done h).trans hg).held
    · exact ((memRead_done h).fails hf).held
  | @writeStops p w s s1 t h _ h2 =>
    rcases consoleWriteAll_plain (chars w) s1 with ⟨_, _, e, _⟩ | ⟨_, e, hf⟩ <;> cases e.symm.trans h2
    exact ((memRead_done h).fails hf).held
  | again h hw h2 _ ih => exact ih.trans (readsWord_goesOn ⟨_, _, h, hw, h2⟩).held

/-! ### The loop of the model, word by word -/

/-- At a word the loop ends, in one state and whatever is left of the bound, or it reads and writes the word and goes
on. -/
theorem stringLoop_succ_cases (chars : Word → List Byte) (p : Word) (s : State) :
    (∃ r : Result Unit, (∀ u, StringRun chars p s u ↔ u = r.state) ∧
      ∀ atEnd n, stringLoop chars atEnd (n + 1) p s = r) ∨
    ∃ t, ReadsWord chars p s t ∧
      ∀ atEnd n, stringLoop chars atEnd (n + 1) p s = stringLoop chars atEnd n (p + 1) t := by
  cases hm : memRead p s with
  | stopped t =>
    refine .inl ⟨.stopped t, fun u => ?_, fun _ _ => by rw [stringLoop, hm, andThen_stopped]⟩
    rw [stringRun_iff, hm]
    simpa using eq_comm
  | done w s1 =>
    by_cases hw : w = 0
    · refine .inl ⟨consoleFlush s1, fun u => ?_, fun _ _ => by rw [stringLoop, hm, andThen_done, if_pos hw]⟩
      rw [stringRun_iff, hm]
      simp [hw]
    · cases hc : consoleWriteAll (chars w) s1 with
      | stopped t =>
        refine .inl ⟨.stopped t, fun u => ?_, fun _ _ => by
          rw [stringLoop, hm, andThen_done, if_neg hw, hc, andThen_stopped]⟩
        have hw0 : ¬w = 0#16 := hw
        rw [stringRun_iff, hm]
        simpa [hw0, hc] using eq_comm
      | done _ t =>
        exact .inr ⟨t, ⟨w, s1, hm, hw, hc⟩, fun _ _ => by
          rw [stringLoop, hm, andThen_done, if_neg hw, hc, andThen_done]⟩

/-- In `n` words the model's loop ends where the spec's does, or it has read and written them all and `atEnd`
decides. -/
theorem stringLoop_ends_or_reads (chars : Word → List Byte) (n : Nat) (p : Word) (s : State) :
    (∃ r : Result Unit, (∀ u, StringRun chars p s u ↔ u = r.state) ∧ ∀ atEnd, stringLoop chars atEnd n p s = r) ∨
    ∃ t, ReadsWords chars n p s t ∧ ∀ atEnd, stringLoop chars atEnd n p s = atEnd (p + BitVec.ofNat 16 n) t := by
  induction n generalizing p s with
  | zero => exact .inr ⟨s, rfl, fun atEnd => by simp [stringLoop]⟩
  | succ n ih =>
    rcases stringLoop_succ_cases chars p s with ⟨r, hr, hl⟩ | ⟨t, ht, hl⟩
    · exact .inl ⟨r, hr, fun atEnd => hl atEnd n⟩
    · rcases ih (p + 1) t with ⟨r, hr, hl'⟩ | ⟨u, hu, hl'⟩
      · exact .inl ⟨r, fun u => (readsWord_stringRun_iff ht).trans (hr u), fun atEnd => (hl atEnd n).trans (hl' atEnd)⟩
      · rw [address_succ] at hl'
        exact .inr ⟨u, ⟨t, ht, hu⟩, fun atEnd => (hl atEnd n).trans (hl' atEnd)⟩

/-! ### A loop that never ends -/

/-- The console neither fails nor finds a key any more, and no word is zero, at KBSR after a poll that finds no key
either: the loop can read and write any word. -/
structure Endless (s : State) : Prop where
  settled : s.console.Settled
  neverFails : s.console.failAfter = none
  words : ∀ a, a ≠ kbsr → s.word a ≠ 0
  status : statusIdle s.params.pollMode (s.word kbsr) ≠ 0

theorem consoleWriteAll_never_fails (chars : List Byte) {s : State} (h : s.console.failAfter = none) :
    ∃ t, consoleWriteAll chars s = .done () t := by
  rcases consoleWriteAll_plain chars s with ⟨_, t, e, -⟩ | ⟨_, _, hf⟩
  · exact ⟨t, e⟩
  · obtain ⟨n, hn⟩ := hf.some
    rw [h] at hn
    cases hn

theorem memRead_kbsr_settled {s : State} (hs : s.console.Settled) (hf : s.console.failAfter = none) :
    memRead kbsr s = .done (statusIdle s.params.pollMode (s.word kbsr)) (pollIdle s) := by
  have hk := settled_findsKey hs
  rcases memRead_kbsr_cases s with ⟨h, -⟩ | ⟨-, h, -⟩ | ⟨h, -⟩ | ⟨-, -, e⟩
  · rw [hf] at h; cases h
  · rw [hk] at h; cases h
  · rw [hf] at h; cases h
  · exact e

theorem Endless.memRead_ne_zero {s : State} (h : Endless s) (p : Word) :
    ∃ w s1, memRead p s = .done w s1 ∧ w ≠ 0 := by
  by_cases hp : p = kbsr
  · exact hp ▸ ⟨_, _, memRead_kbsr_settled h.settled h.neverFails, h.status⟩
  · exact ⟨_, _, memRead_ordinary s hp, h.words p hp⟩

theorem Endless.readsWord {chars : Word → List Byte} {s : State} (h : Endless s) (p : Word) :
    ∃ t, ReadsWord chars p s t := by
  obtain ⟨w, s1, h1, hw⟩ := h.memRead_ne_zero p
  obtain ⟨t, h2⟩ := consoleWriteAll_never_fails (chars w) ((memRead_done h1).failAfter h.neverFails)
  exact ⟨t, w, s1, h1, hw, h2⟩

theorem Endless.of_readsWord {chars : Word → List Byte} {p : Word} {s t : State} (h : Endless s)
    (ht : ReadsWord chars p s t) : Endless t := by
  obtain ⟨hparams, hwords, hstatus⟩ := readsWords_settled_frame 1 h.settled ⟨t, ht, rfl⟩
  exact ⟨(readsWord_polls ht).1 h.settled, (readsWord_goesOn ht).failAfter h.neverFails,
    fun a ha => hwords a ha ▸ h.words a ha, by rw [hparams, hstatus]; exact h.status⟩

theorem Endless.not_stringRun {chars : Word → List Byte} {p : Word} {s t : State} (h : Endless s) :
    ¬StringRun chars p s t := by
  intro hrun
  induction hrun with
  | readStops hm =>
    obtain ⟨_, _, h1, -⟩ := h.memRead_ne_zero _
    cases h1.symm.trans hm
  | terminator hm =>
    obtain ⟨_, _, h1, hw⟩ := h.memRead_ne_zero _
    cases h1.symm.trans hm
    exact hw rfl
  | writeStops hm _ h2 =>
    obtain ⟨_, h2'⟩ := consoleWriteAll_never_fails (chars _) ((memRead_done hm).failAfter h.neverFails)
    cases h2'.symm.trans h2
  | again hm hw h2 _ ih => exact ih (h.of_readsWord ⟨_, _, hm, hw, h2⟩)

/-- A round over all addresses in which no key is left to be found is repeated for ever. -/
theorem endless_of_settled_round {chars : Word → List Byte} {p : Word} {s t : State} (hs : s.console.Settled)
    (hf : s.console.failAfter = none) (h : ReadsWords chars 65536 p s t) : Endless s where
  settled := hs
  neverFails := hf
  words := fun a ha => by
    obtain ⟨i, _, u, v, h1, h2, -⟩ := readsWords_round_reads h a
    obtain ⟨-, hwords, -⟩ := readsWords_settled_frame i hs h1
    obtain ⟨-, -, -, hne⟩ := readsWord_ordinary ha h2
    rwa [hwords a ha] at hne
  status := by
    obtain ⟨i, _, u, v, h1, h2, -⟩ := readsWords_round_reads h kbsr
    obtain ⟨hparams, -, hstatus⟩ := readsWords_settled_frame i hs h1
    obtain ⟨-, -, -, -, hne⟩ := readsWord_kbsr_settled ((readsWords_polls i h1).1 hs) h2
    rwa [hparams, hstatus] at hne

/-- The bound is right (log 12): a console that will fail does not let so many words through, and else the rounds
before the last settle the console, and the last is repeated for ever. -/
theorem not_stringRun_of_readsWords_bound {chars : Word → List Byte} (hch : ∀ w, chars w ≠ []) {p : Word}
    {s t u : State} (h : ReadsWords chars (stringBound s.console) p s t) : ¬StringRun chars p s u := by
  cases hf : s.console.failAfter with
  | some k =>
    rw [stringBound, hf] at h
    have := readsWords_le_failAfter hch (k + 1) h hf
    omega
  | none =>
    have hb : stringBound s.console = 65536 * (s.console.pollsToSettle + 1) + 65536 := by
      simp only [stringBound, hf]
      omega
    rw [hb] at h
    obtain ⟨v, h1, h2⟩ := readsWords_split _ _ h
    have hs : v.console.Settled := by
      have hle := pollsLeft_le_pollsToSettle s.console
      rcases readsWords_rounds_settle _ h1 with hs | hlt
      · exact hs
      · omega
    rw [readsWords_stringRun_iff _ h1]
    exact (endless_of_settled_round hs (readsWords_never_fails hch _ h1 hf) h2).not_stringRun

/-! ### The services -/

theorem putsChars_ne_nil (w : Word) : putsChars w ≠ [] := by simp [putsChars]

theorem putspChars_ne_nil (w : Word) : putspChars w ≠ [] := by
  unfold putspChars
  split <;> simp

theorem holdAt_release {q : Held} {s : State} (h : s.held = none) : { holdAt q s with held := none } = s := by
  rw [holdAt, ← h]

theorem followsStringLoop_of_ends {chars : Word → List Byte} {resumeAt : Word → Held} {p : Word} {s t : State}
    (hs : s.held = none) (h : ∀ u, StringRun chars p s u ↔ u = t) : FollowsStringLoop chars resumeAt p s t := by
  have ht : t.held = none := (stringRun_held ((h t).mpr rfl)).trans hs
  exact ⟨fun _ => h, fun hne => absurd ht hne⟩

theorem followsStringLoop_of_holdAt {chars : Word → List Byte} {resumeAt : Word → Held} {p q : Word} {s t : State}
    (ht : t.held = none) (hnever : ∀ u, ¬StringRun chars p s u) (hreach : StringReaches chars p s q t) :
    FollowsStringLoop chars resumeAt p s (holdAt (resumeAt q) t) :=
  ⟨fun h => absurd h (Option.some_ne_none _), fun _ => ⟨hnever, q, rfl, (holdAt_release ht).symm ▸ hreach⟩⟩

theorem stringService_follows {chars : Word → List Byte} (hch : ∀ w, chars w ≠ []) (resumeAt : Word → Held) (p : Word)
    {s : State} (hs : s.held = none) :
    FollowsStringLoop chars resumeAt p s (stringService chars resumeAt p s).state := by
  unfold stringService
  rcases stringLoop_ends_or_reads chars 65536 p s with ⟨r, hr, hl⟩ | ⟨t, ht, hl⟩ <;> rw [hl]
  · exact followsStringLoop_of_ends hs hr
  have hrun := fun u => readsWords_stringRun_iff (u := u) 65536 ht
  rcases stringLoop_ends_or_reads chars (stringBound t.console) (p + BitVec.ofNat 16 65536) t with
    ⟨r, hr, hl'⟩ | ⟨u, hu, hl'⟩ <;> rw [hl']
  · exact followsStringLoop_of_ends hs fun u => (hrun u).trans (hr u)
  · have hheld : u.held = none := ((readsWords_goesOn _ ht).trans (readsWords_goesOn _ hu)).held.trans hs
    exact followsStringLoop_of_holdAt hheld (fun v => mt (hrun v).mp (not_stringRun_of_readsWords_bound hch hu))
      ((readsWords_reaches _ ht).trans (readsWords_reaches _ hu))

theorem putsFrom_follows (p : Word) {s : State} (hs : s.held = none) :
    FollowsStringLoop putsChars .putsAt p s (putsFrom p s) :=
  stringService_follows putsChars_ne_nil .putsAt p hs

theorem putspFrom_follows (p : Word) {s : State} (hs : s.held = none) :
    FollowsStringLoop putspChars .putspAt p s (putspFrom p s) :=
  stringService_follows putspChars_ne_nil .putspAt p hs

/-- Settles O40: first and resumed steps run the same service from a state in which nothing is held. -/
theorem stringServicesAreTheLoopOfTheSpec : Obligations.StringServicesAreTheLoopOfTheSpec := by
  refine ⟨fun s t hs h => ?_, fun s t hs h => ?_, fun s t p hr hh h => ?_, fun s t p hr hh h => ?_⟩
  · cases h
    exact putsFrom_follows _ hs
  · cases h
    exact putspFrom_follows _ hs
  · rw [step_held hr hh] at h
    cases h
    exact putsFrom_follows p rfl
  · rw [step_held hr hh] at h
    cases h
    exact putspFrom_follows p rfl

end Sys2Proof.Machine
end

section
/-! PROOFS. The state (10_state.md): what reset makes it, memories as data, and what each instruction and each held step
writes of the registers, COND, the PC and memory. -/

namespace Sys2Proof.Machine

/-! ### Reset -/

/-- Settles O47: field by field; memory lists nothing, and an unlisted word is zero. -/
theorem resetStateIsAsTheSpecSays : Obligations.ResetStateIsAsTheSpecSays :=
  ⟨fun r => by cases r <;> rfl, rfl, rfl, rfl, fun _ => rfl, rfl, rfl, rfl, by decide⟩

/-- Settles O49: memory lists nothing, and the core runs. -/
theorem invariantHoldsAtReset : Obligations.InvariantHoldsAtReset := ⟨rfl, fun _ => rfl⟩

/-! ### Memories as data -/

/-- At its first listed address a canonical memory does not read as unlisted, so one that reads the same begins there
or before. -/
theorem le_first_address {lo lo' k : Nat} {w : Word} {m m' : Memory} (hm : Memory.wfFrom lo ((k, w) :: m) = true)
    (hm' : Memory.wfFrom lo' m' = true)
    (h : ∀ a < 65536, Memory.lookup ((k, w) :: m) a = Memory.lookup m' a) : lo' ≤ k := by
  obtain ⟨⟨-, hk, hw⟩, -⟩ := (wfFrom_cons lo k w m).mp hm
  by_contra hlt
  have hread := h k hk
  rw [lookup_cons, if_pos rfl, lookup_below hm' (Nat.lt_of_not_le hlt)] at hread
  exact hw hread

theorem wfFrom_head {lo k : Nat} {w : Word} {m : Memory} (hm : Memory.wfFrom lo ((k, w) :: m) = true) :
    Memory.wfFrom k ((k, w) :: m) = true := by
  rw [wfFrom_cons] at hm ⊢
  exact ⟨⟨Nat.le_refl k, hm.1.2⟩, hm.2⟩

/-- After the same first cell, canonical memories that read the same go on with memories that do. -/
theorem lookup_tail_eq {k : Nat} {w : Word} {m m' : Memory} (hm : Memory.wfFrom (k + 1) m = true)
    (hm' : Memory.wfFrom (k + 1) m' = true)
    (h : ∀ a < 65536, Memory.lookup ((k, w) :: m) a = Memory.lookup ((k, w) :: m') a) :
    ∀ a < 65536, Memory.lookup m a = Memory.lookup m' a := by
  intro a ha
  by_cases hak : a = k
  · rw [lookup_below hm (by omega), lookup_below hm' (by omega)]
  · simpa [lookup_cons, hak] using h a ha

theorem eq_of_wfFrom_of_lookup_eq {lo lo' : Nat} {m m' : Memory} (hm : Memory.wfFrom lo m = true)
    (hm' : Memory.wfFrom lo' m' = true) (h : ∀ a < 65536, Memory.lookup m a = Memory.lookup m' a) : m = m' := by
  induction m generalizing lo lo' m' with
  | nil =>
    cases m' with
    | nil => rfl
    | cons cell' m' =>
      have hle := le_first_address (lo' := cell'.1 + 1) hm' rfl fun a ha => (h a ha).symm
      exact absurd hle (Nat.not_succ_le_self _)
  | cons cell m ih =>
    obtain ⟨k, w⟩ := cell
    cases m' with
    | nil => exact absurd (le_first_address (lo' := k + 1) hm rfl h) (Nat.not_succ_le_self _)
    | cons cell' m' =>
      obtain ⟨k', w'⟩ := cell'
      obtain ⟨⟨-, hk, -⟩, hmt⟩ := (wfFrom_cons lo k w m).mp hm
      obtain ⟨-, hmt'⟩ := (wfFrom_cons lo' k' w' m').mp hm'
      obtain rfl : k = k' := Nat.le_antisymm (le_first_address hm' (wfFrom_head hm) fun a ha => (h a ha).symm)
        (le_first_address hm (wfFrom_head hm') h)
      obtain rfl : w = w' := by simpa [lookup_cons] using h k hk
      rw [ih hmt hmt' (lookup_tail_eq hmt hmt' h)]

/-- Settles O25, by induction on the listed cells: the first addresses agree, then their words, then the rest. -/
theorem equalMemoriesAreEqualData : Obligations.EqualMemoriesAreEqualData :=
  fun _ _ hm hm' h => eq_of_wfFrom_of_lookup_eq hm hm' fun a ha => by
    simpa [Nat.mod_eq_of_lt ha] using h (BitVec.ofNat 16 a)

/-! ### What an instruction does to the state -/

/-- Everything an instruction can do to the state whose PC is past it, by its kind: one of the seven completes; a read
of one of the seven or of STI fails; a store; a trap service; a transfer of control, with or without a link; or RUN is
changed and nothing else. -/
inductive ExecEffect (i : Instr) (s t : State) : Prop where
  | completes {dr : Reg} {v : Word} {u : State} (hi : setsFlags i = true) (hdr : writesReg i = some dr)
      (hpc : pcAfter s i = s.pc) (hu : GoesOn s u) (ht : t = writeRegCC dr v u)
  | readFails (hpc : pcAfter s i = s.pc) (ht : Fails s t)
  | stores {a v : Word} {u : State} (hi : isStore i = true) (hf : setsFlags i = false)
      (hpc : pcAfter s i = s.pc) (hu : GoesOn s u) (ht : t = memWrite a v u)
  | serves (hf : setsFlags i = false) (hpc : pcAfter s i = s.pc) (ht : ServiceEnds s t)
      (hregs : writesReg i = some .r0 ∨ t.regs = s.regs)
  | transfers {u : State} (hf : setsFlags i = false) (hu : u = s ∨ writesReg i = some .r7 ∧ u = linkR7 s)
      (ht : t = writePc (pcAfter s i) u)
  | stops {r : Run} (hf : setsFlags i = false) (hpc : pcAfter s i = s.pc) (ht : t = { s with run := r })

/-- The last thing a step does is done where the operations before it went on, or one of them failed. -/
theorem Result.Plain.finish_cases {α : Type} {s : State} {r : Result α} (h : r.Plain s) (k : α → State → State) :
    (∃ a u, GoesOn s u ∧ r.finish k = k a u) ∨ Fails s (r.finish k) := by
  rcases h with ⟨a, u, rfl, hu⟩ | ⟨u, rfl, hf⟩
  · exact .inl ⟨a, u, hu, rfl⟩
  · exact .inr hf

theorem loadInto_effect {i : Instr} {dr : Reg} {s u : State} (a : Word) (hi : setsFlags i = true)
    (hdr : writesReg i = some dr) (hpc : pcAfter s i = s.pc) (hu : GoesOn s u) : ExecEffect i s (loadInto dr a u) := by
  rcases (memRead_plain a u).finish_cases fun v t => writeRegCC dr v t with ⟨v, t, ht, e⟩ | hf
  · exact .completes hi hdr hpc (hu.trans ht) e
  · exact .readFails hpc (hu.fails hf)

theorem ldi_effect (dr : Reg) (off : BitVec 9) (s : State) :
    ExecEffect (.ldi dr off) s ((memRead (addressAt s.pc off) s).finish fun p u => loadInto dr p u) := by
  rcases (memRead_plain _ s).finish_cases fun p u => loadInto dr p u with ⟨p, u, hu, e⟩ | hf
  · exact e ▸ loadInto_effect p rfl rfl rfl hu
  · exact .readFails rfl hf

theorem sti_effect (sr : Reg) (off : BitVec 9) (s : State) :
    ExecEffect (.sti sr off) s ((memRead (addressAt s.pc off) s).finish fun p u => memWrite p (u.reg sr) u) := by
  rcases (memRead_plain _ s).finish_cases fun p u => memWrite p (u.reg sr) u with ⟨p, u, hu, e⟩ | hf
  · exact .stores rfl rfl rfl hu e
  · exact .readFails rfl hf

/-- BR's target, or the PC as it is when no flag matches (R24, R120). -/
theorem pcAfter_br (n z p : Bool) (off : BitVec 9) (s : State) :
    pcAfter s (.br n z p off) = if branchTaken n z p s.cond then addressAt s.pc off else s.pc := by
  simp only [pcAfter, branchTaken_iff, addressAt]

/-- JSRR's base register is read after the link (R24, decision D18). -/
theorem pcAfter_jsrr (base : Reg) (s : State) : pcAfter s (.jsrr base) = (linkR7 s).reg base := by
  by_cases hb : base = .r7
  · subst hb; exact (writeReg_reg_same _ _ _).symm
  · exact (if_neg hb).trans (writeReg_reg_ne _ s hb).symm

theorem br_effect (n z p : Bool) (off : BitVec 9) (s : State) :
    ExecEffect (.br n z p off) s (if branchTaken n z p s.cond then writePc (addressAt s.pc off) s else s) := by
  refine .transfers rfl (.inl rfl) ?_
  rw [pcAfter_br]
  split <;> rfl

theorem jsrr_effect (base : Reg) (s : State) : ExecEffect (.jsrr base) s (jumpThrough base (linkR7 s)) :=
  .transfers rfl (.inr ⟨rfl, rfl⟩) (by rw [pcAfter_jsrr, jumpThrough])

theorem Result.Plain.state_regs {α : Type} {s : State} {r : Result α} (h : r.Plain s) : r.state.regs = s.regs := by
  rcases h with ⟨_, t, rfl, hg⟩ | ⟨t, rfl, hf⟩
  · exact hg.regs
  · exact hf.regs

theorem out_regs (s : State) :
    ((consoleWrite (lowByte (s.reg .r0)) s).andThen fun _ s1 => consoleFlush s1).state.regs = s.regs :=
  ((consoleWrite_plain _ s).andThen fun _ t _ => consoleFlush_plain t).state_regs

theorem exec_effect {i : Instr} {s t : State} (h : exec i s = .next t) : ExecEffect i s t := by
  cases i <;> injection h with h <;> subst h
  case br => exact br_effect _ _ _ _ s
  case jmp | ret => exact .transfers rfl (.inl rfl) rfl
  case jsr => exact .transfers rfl (.inr ⟨rfl, rfl⟩) rfl
  case jsrr => exact jsrr_effect _ s
  case ld | ldr => exact loadInto_effect _ rfl rfl rfl (GoesOn.refl s)
  case ldi => exact ldi_effect _ _ s
  case st | str => exact .stores rfl rfl rfl (GoesOn.refl s) rfl
  case sti => exact sti_effect _ _ s
  case getc => exact .serves rfl rfl (getcRead_ends s) (.inl rfl)
  case inTrap => exact .serves rfl rfl (inTrap_ends s) (.inl rfl)
  case out => exact .serves rfl rfl (out_ends s) (.inr (out_regs s))
  case puts => exact .serves rfl rfl (putsFrom_ends _ s).1 (.inr (putsFrom_ends _ s).2)
  case putsp => exact .serves rfl rfl (putspFrom_ends _ s).1 (.inr (putspFrom_ends _ s).2)
  case rti | res | halt | trapUndefined => exact .stops rfl rfl rfl
  case addReg | addImm | andReg | andImm | notReg | lea => exact .completes rfl rfl rfl (GoesOn.refl s) rfl

/-! ### COND -/

theorem exec_cond_of_not_setsFlags {i : Instr} {s t : State} (h : exec i s = .next t) (hi : setsFlags i = false) :
    t.cond = s.cond := by
  cases exec_effect h with
  | completes hset => simp [hi] at hset
  | readFails _ ht => exact ht.cond
  | stores _ _ _ hu ht => rw [ht]; exact hu.cond
  | serves _ _ ht => exact ht.cond
  | transfers _ hu ht => obtain rfl | ⟨-, rfl⟩ := hu <;> rw [ht] <;> rfl
  | stops _ _ ht => rw [ht]

/-- One of the seven completes, and COND is the sign of what it wrote, or the console stops its read (R28). -/
theorem exec_of_setsFlags {i : Instr} {s t : State} (h : exec i s = .next t) (hi : setsFlags i = true) :
    (t.run = s.run ∧ ∃ dr, writesReg i = some dr ∧ t.cond = condOf (t.reg dr)) ∨ Fails s t := by
  cases exec_effect h with
  | @completes dr v u _ hdr _ hu ht =>
    have hreg : (writeRegCC dr v u).reg dr = v := writeReg_reg_same dr v u
    exact .inl ⟨ht ▸ hu.run, dr, hdr, by rw [ht, hreg]; rfl⟩
  | readFails _ ht => exact .inr ht
  | stores _ hf | serves hf | transfers hf | stops hf => simp [hi] at hf

theorem code_one_hot (c : Cond) : c.code = 0b100 ∨ c.code = 0b010 ∨ c.code = 0b001 := by
  cases c <;> decide

/-- Settles O9: of the seven, a completed one leaves RUN and a stopped one has failed, so RUN tells them apart. -/
theorem onlySevenInstructionsWriteTheFlags : Obligations.OnlySevenInstructionsWriteTheFlags := by
  refine ⟨code_one_hot, fun i s t h => ⟨exec_cond_of_not_setsFlags h, fun hi _ ht => ?_, fun hi hs ht => ?_⟩,
    fun q s => (resumeHeld_ends q s).cond⟩
  · rcases exec_of_setsFlags h hi with ⟨-, hd⟩ | hf
    · exact hd
    · cases hf.run.symm.trans ht
  · rcases exec_of_setsFlags h hi with ⟨hrun, -⟩ | hf
    · exact absurd (hrun.trans hs) ht
    · exact hf.cond

/-! ### The general registers -/

theorem exec_reg_of_not_written {i : Instr} {s t : State} (h : exec i s = .next t) {r : Reg}
    (hr : writesReg i ≠ some r) : t.reg r = s.reg r := by
  have hne {q : Reg} (hq : writesReg i = some q) : r ≠ q := fun e => hr (e ▸ hq)
  cases exec_effect h with
  | @completes dr v u _ hdr _ hu ht =>
    calc t.reg r = (writeReg dr v u).reg r := by rw [ht]; rfl
      _ = u.reg r := writeReg_reg_ne v u (hne hdr)
      _ = s.reg r := reg_of_regs hu.regs r
  | readFails _ ht => exact reg_of_regs ht.regs r
  | stores _ _ _ hu ht => rw [ht, memWrite_reg]; exact reg_of_regs hu.regs r
  | serves _ _ ht hregs =>
    rcases hregs with h0 | hregs
    · exact ht.others r (hne h0)
    · exact reg_of_regs hregs r
  | transfers _ hu ht =>
    rw [ht, writePc_reg]
    obtain rfl | ⟨h7, rfl⟩ := hu
    · rfl
    · exact writeReg_reg_ne s.pc s (hne h7)
  | stops _ _ ht => rw [ht]; rfl

/-- Settles O53: each kind of instruction writes its listed register only, and a string service none. -/
theorem onlyTheListedRegisterIsWritten : Obligations.OnlyTheListedRegisterIsWritten :=
  ⟨fun _ _ _ h _ => exec_reg_of_not_written h, fun q s => (resumeHeld_ends q s).others,
    fun p _ => ⟨reg_of_regs (putsFrom_ends p _).2, reg_of_regs (putspFrom_ends p _).2⟩⟩

/-! ### The PC -/

theorem exec_pc {i : Instr} {s t : State} (h : exec i s = .next t) : t.pc = pcAfter s i := by
  cases exec_effect h with
  | completes _ _ hpc hu ht => rw [ht, hpc]; exact hu.pc
  | readFails hpc ht => exact ht.pc.trans hpc.symm
  | stores _ _ hpc hu ht => rw [ht, hpc]; exact hu.pc
  | serves _ hpc ht => exact ht.pc.trans hpc.symm
  | transfers _ _ ht => rw [ht, writePc_pc]
  | stops _ hpc ht => rw [ht, hpc]

/-- Settles O54: only a transfer of control writes the PC. -/
theorem pcAfterEachInstruction : Obligations.PcAfterEachInstruction :=
  ⟨fun _ _ _ => exec_pc, fun q s => (resumeHeld_ends q s).pc⟩

/-! ### Memory -/

theorem exec_memory_of_not_isStore {i : Instr} {s t : State} (h : exec i s = .next t) (hi : isStore i = false) :
    MemoryByPolls s t ∧ ∀ a : Word, a ≠ kbsr → a ≠ kbdr → t.word a = s.word a := by
  cases exec_effect h with
  | completes _ _ _ hu ht => rw [ht]; exact ⟨hu.polls, hu.words⟩
  | readFails _ ht => exact ⟨ht.polls, ht.words⟩
  | stores hst => simp [hi] at hst
  | serves _ _ ht => exact ⟨ht.polls, ht.words⟩
  | transfers _ hu ht => obtain rfl | ⟨-, rfl⟩ := hu <;> rw [ht] <;> exact ⟨.inr ⟨rfl, rfl⟩, fun _ _ _ => rfl⟩
  | stops _ _ ht => rw [ht]; exact ⟨.inr ⟨rfl, rfl⟩, fun _ _ _ => rfl⟩

theorem andThen_mem {α β : Type} {s : State} {r : Result α} {k : α → State → Result β} (hr : r.state.mem = s.mem)
    (hk : ∀ a t, (k a t).state.mem = t.mem) : (r.andThen k).state.mem = s.mem := by
  cases r with
  | done a t => exact (hk a t).trans hr
  | stopped t => exact hr

theorem finish_mem {α : Type} {s : State} {r : Result α} {k : α → State → State} (hr : r.state.mem = s.mem)
    (hk : ∀ a t, (k a t).mem = t.mem) : (r.finish k).mem = s.mem := by
  cases r with
  | done a t => exact (hk a t).trans hr
  | stopped t => exact hr

theorem consoleWrite_mem (ch : Byte) (s : State) : (consoleWrite ch s).state.mem = s.mem := by
  rcases consoleWrite_cases ch s with ⟨-, e⟩ | ⟨-, e⟩ <;> rw [e] <;> rfl

theorem consoleFlush_mem (s : State) : (consoleFlush s).state.mem = s.mem := by
  rcases consoleFlush_cases s with ⟨-, e⟩ | ⟨-, e⟩ <;> rw [e] <;> rfl

theorem consoleWriteAll_mem (chars : List Byte) (s : State) : (consoleWriteAll chars s).state.mem = s.mem := by
  induction chars generalizing s with
  | nil => rfl
  | cons ch rest ih => exact andThen_mem (consoleWrite_mem ch s) fun _ t => ih t

theorem consoleRead_holdAt_mem (q : Held) (s : State) : (consoleRead (holdAt q) s).state.mem = s.mem := by
  rcases consoleRead_cases (holdAt q) s with ⟨-, e⟩ | ⟨-, -, e⟩ | ⟨-, _, _, -, e⟩ <;> rw [e] <;> rfl

theorem getcRead_mem (s : State) : (getcRead s).mem = s.mem :=
  finish_mem (consoleRead_holdAt_mem .getcRead s) fun _ _ => rfl

theorem inRead_mem (s : State) : (inRead s).mem = s.mem :=
  finish_mem (andThen_mem (consoleRead_holdAt_mem .inRead s) fun ch t => andThen_mem (consoleWrite_mem ch t)
    fun _ u => andThen_mem (consoleFlush_mem u) fun _ _ => rfl) fun _ _ => rfl

/-- R66's rows with no access: the console's operations do not touch memory, and nothing else could. -/
theorem exec_mem_of_noAccess {i : Instr} {s t : State} (h : exec i s = .next t) (hi : noAccess i = true) :
    t.mem = s.mem := by
  cases i <;> injection h with h <;> subst h
  case ld | ldi | ldr | st | sti | str | puts | putsp => cases hi
  case br => split <;> rfl
  case getc => exact getcRead_mem s
  case out => exact andThen_mem (consoleWrite_mem _ s) fun _ t => consoleFlush_mem t
  case inTrap =>
    exact finish_mem (andThen_mem (consoleWriteAll_mem _ s) fun _ t => consoleFlush_mem t) fun _ t => inRead_mem t
  all_goals rfl

theorem memRead_polls_only_kbsr {a : Word} {s t : State} {v : Word}
    (h : memRead a s = .done v t ∨ memRead a s = .stopped t) (hp : t.console.polls ≠ s.console.polls) : a = kbsr := by
  by_contra ha
  rw [memRead_ordinary s ha] at h
  rcases h with h | h <;> cases h
  exact hp rfl

/-- Settles O55: memory moves with the count of polls, for a non-store and for a held step alike. -/
theorem onlyStoresAndPollsChangeMemory : Obligations.OnlyStoresAndPollsChangeMemory :=
  ⟨fun _ _ _ => exec_mem_of_noAccess,
    fun _ _ _ h hi => (exec_memory_of_not_isStore h hi).imp_left MemoryByPolls.mem_eq,
    fun q s => ⟨(resumeHeld_ends q s).polls.mem_eq, (resumeHeld_ends q s).words⟩,
    fun _ => ⟨getcRead_mem _, inRead_mem _⟩,
    fun _ _ _ _ => memRead_polls_only_kbsr⟩

end Sys2Proof.Machine
end

section
/-! PROOFS. Memory, the keyboard and the step (20_memory.md): a store and a read, what a poll leaves in the two keyboard
words when it finds a key, finds none or fails, and the instruction a step fetches. -/

namespace Sys2Proof.Machine

/-! ### A store and a read -/

/-- Settles O24: a store writes one word, and a read off KBSR gives the word stored. -/
theorem storedWordIsReadBack : Obligations.StoredWordIsReadBack := by
  intro a v s b
  obtain ⟨hw, -, hregs, hcond, hpc, hout⟩ := memWrite_wrote a v s
  exact ⟨memWrite_word a v s b, fun ha => by rw [memRead_ordinary _ ha, hw], hregs, hcond, hpc, hout⟩

/-- A read of KBSR whose poll answers gives the word stored after the poll (R51). -/
theorem memRead_kbsr_of_poll {s t : State} (h : keyboardPoll s = .done () t) :
    memRead kbsr s = .done (t.word kbsr) t := by
  rw [memRead_kbsr, h, andThen_done]

theorem memRead_kbsr_of_poll_stopped {s t : State} (h : keyboardPoll s = .stopped t) :
    memRead kbsr s = .stopped t := by
  rw [memRead_kbsr, h, andThen_stopped]

/-- Settles O26: 0xFE00 is KBSR, and only a read of KBSR goes through the poll. -/
theorem memReadPollsOnlyAtTheStatusWord : Obligations.MemReadPollsOnlyAtTheStatusWord :=
  ⟨fun _ s ha => memRead_ordinary s ha, fun _ _ => memRead_kbsr_of_poll, fun _ _ => memRead_kbsr_of_poll_stopped⟩

/-! ### The keyboard words -/

theorem zext8_toNat (ch : Byte) : (zext8 ch).toNat = ch.toNat := BitVec.toNat_setWidth_of_le (by decide)

theorem statusReady_bit15 (mode : PollMode) (w : Word) : (statusReady mode w).getLsbD 15 = true := by
  cases mode <;> simp [statusReady]

theorem statusIdle_bit15 (mode : PollMode) (w : Word) : (statusIdle mode w).getLsbD 15 = false := by
  cases mode <;> simp [statusIdle]

/-- A word whose bits 14:0 are zero is one of two. -/
theorem eq_of_low_bits_zero {w : Word} (h : w &&& 0x7FFF = 0) : w = 0 ∨ w = 0x8000 := by
  have hmod : w.toNat % 2 ^ 15 = 0 := by
    rw [← Nat.and_two_pow_sub_one_eq_mod]
    exact congrArg BitVec.toNat h
  bv_omega

theorem statusReady_of_low_bits_zero (mode : PollMode) {w : Word} (h : w &&& 0x7FFF = 0) :
    statusReady mode w = 0x8000 := by
  obtain rfl | rfl := eq_of_low_bits_zero h <;> cases mode <;> rfl

theorem statusIdle_of_low_bits_zero (mode : PollMode) {w : Word} (h : w &&& 0x7FFF = 0) :
    statusIdle mode w = 0 := by
  cases mode with
  | bit15Only => exact h
  | wholeWord => rfl

/-! ### The four ends of a read of KBSR, by what the console answers -/

theorem memRead_kbsr_takes {s : State} {ch : Byte} {rest : List Byte} (hi : s.console.input = ch :: rest)
    (hk : s.console.findsKey = true) (ha : Answers 2 s.console) :
    memRead kbsr s = .done (statusReady s.params.pollMode (s.word kbsr)) (pollTook ch rest s) := by
  rcases memRead_kbsr_cases s with ⟨hf, -⟩ | ⟨-, -, c, r, hi', e⟩ | ⟨hf, -⟩ | ⟨-, hk', -⟩
  · exact absurd (ha 0 hf) (by decide)
  · cases hi.symm.trans hi'; exact e
  · exact absurd (ha 1 hf) (by decide)
  · cases hk.symm.trans hk'

theorem memRead_kbsr_idle {s : State} (hk : s.console.findsKey = false) (ha : Answers 1 s.console) :
    memRead kbsr s = .done (statusIdle s.params.pollMode (s.word kbsr)) (pollIdle s) := by
  rcases memRead_kbsr_cases s with ⟨hf, -⟩ | ⟨-, hk', -⟩ | ⟨-, hk', -⟩ | ⟨-, -, e⟩
  · exact absurd (ha 0 hf) (by decide)
  · cases hk.symm.trans hk'
  · cases hk.symm.trans hk'
  · exact e

theorem memRead_kbsr_unanswered {s : State} (hf : s.console.failAfter = some 0) :
    memRead kbsr s = .stopped (raiseFatal .ioFailure s) := by
  rcases memRead_kbsr_cases s with ⟨-, e⟩ | ⟨ha, -⟩ | ⟨hf', -⟩ | ⟨ha, -⟩
  · exact e
  · exact absurd (ha 0 hf) (by decide)
  · cases hf.symm.trans hf'
  · exact absurd (ha 0 hf) (by decide)

theorem memRead_kbsr_read_fails {s : State} (hf : s.console.failAfter = some 1) (hk : s.console.findsKey = true) :
    memRead kbsr s = .stopped (pollReadFailed s) := by
  rcases memRead_kbsr_cases s with ⟨hf', -⟩ | ⟨ha, -⟩ | ⟨-, -, e⟩ | ⟨-, hk', -⟩
  · cases hf.symm.trans hf'
  · exact absurd (ha 1 hf) (by decide)
  · exact e
  · cases hk.symm.trans hk'

/-! ### What a read of KBSR leaves -/

theorem Quiet.pollFrame {s t : State} (h : Quiet s t) (hh : t.held = s.held)
    (ho : t.console.output = s.console.output) : PollFrame s t :=
  ⟨reg_of_regs h.regs, h.cond, h.pc, hh, h.params, ho, h.words⟩

theorem pollTook_frame {s : State} {ch : Byte} {rest : List Byte} (hi : s.console.input = ch :: rest) :
    PollFrame s (pollTook ch rest s) := (pollTook_goesOn hi).pollFrame rfl rfl

theorem pollIdle_frame (s : State) : PollFrame s (pollIdle s) := (pollIdle_goesOn s).pollFrame rfl rfl

theorem pollReadFailed_frame {s : State} (hf : s.console.failAfter = some 1) : PollFrame s (pollReadFailed s) :=
  (pollReadFailed_fails hf).pollFrame rfl rfl

/-- Settles O27: the read ends in `pollTook` or in `pollIdle`, whose status words are `statusReady` and `statusIdle`. -/
theorem readingKbsrPollsTheKeyboard : Obligations.ReadingKbsrPollsTheKeyboard := by
  constructor
  · intro s ch rest hi hk ha
    exact ⟨_, _, memRead_kbsr_takes hi hk ha, pollTook_frame hi, rfl, rfl, pollTook_kbsr ch rest s,
      statusReady_bit15 _ _, fun hm => by rw [hm, statusReady], fun hm => by rw [hm, statusReady],
      by rw [pollTook_kbdr, zext8_toNat]⟩
  · intro s hk ha
    exact ⟨_, _, memRead_kbsr_idle hk ha, pollIdle_frame s, rfl, rfl, pollIdle_kbsr s,
      statusIdle_bit15 _ _, fun hm => by rw [hm, statusIdle], fun hm => by rw [hm, statusIdle],
      pollIdle_word s kbdr_ne_kbsr⟩

/-- Settles O28: the question fails before anything is done; the read fails after the status word was set. -/
theorem failingPollKeepsWhatItDidBefore : Obligations.FailingPollKeepsWhatItDidBefore :=
  ⟨fun _ => memRead_kbsr_unanswered, fun s hf hk =>
    ⟨_, memRead_kbsr_read_fails hf hk, pollReadFailed_frame hf, rfl, pollReadFailed_kbsr s,
      pollReadFailed_word s kbdr_ne_kbsr, rfl⟩⟩

/-- A poll whose answer the state lists finds a key if the answer says so. -/
theorem findsKey_of_listed {c : Console} {ch : Byte} {rest : List Byte} {b : List Bool} (hi : c.input = ch :: rest)
    (hr : c.keyReady = true :: b) : c.findsKey = true := by
  simp [Console.findsKey, hi, hr]

theorem pollTook_keyReady (ch : Byte) (rest : List Byte) (s : State) :
    (pollTook ch rest s).console.keyReady = s.console.keyReady.tail := rfl

/-- A poll that took a character used two answers. -/
theorem pollTook_answers {n : Nat} {s : State} (ch : Byte) (rest : List Byte) (h : Answers (2 + n) s.console) :
    Answers n (pollTook ch rest s).console := answers_after (n := 2) h

/-- Settles O29: both reads end in `pollTook`, and the second writes KBDR again. -/
theorem secondPollOverwritesTheFirstKey : Obligations.SecondPollOverwritesTheFirstKey := by
  intro s c1 c2 rest b hi hr ha
  have h1 := memRead_kbsr_takes hi (findsKey_of_listed hi hr) (answers_mono ha (by decide))
  have hr1 : (pollTook c1 (c2 :: rest) s).console.keyReady = true :: b := by rw [pollTook_keyReady, hr]; rfl
  have h2 := memRead_kbsr_takes (s := pollTook c1 (c2 :: rest) s) rfl (findsKey_of_listed rfl hr1)
    (pollTook_answers c1 (c2 :: rest) ha)
  exact ⟨_, _, _, _, h1, h2, pollTook_kbdr _ _ _, pollTook_kbdr _ _ _, rfl, fun a hs hd =>
    (pollTook_word _ _ _ hs hd).trans (pollTook_word _ _ s hs hd)⟩

/-! ### The instruction a step fetches -/

theorem step_of_fetch {s s1 : State} {ir : Word} (hr : s.run = .running) (hh : s.held = none)
    (h : fetch s = .done ir s1) : step s = exec (decode ir) s1 :=
  (step_fetches hr hh).trans (fetchAndRun_done h)

theorem step_of_fetch_stopped {s s1 : State} (hr : s.run = .running) (hh : s.held = none)
    (h : fetch s = .stopped s1) : step s = .next s1 :=
  (step_fetches hr hh).trans (fetchAndRun_stopped h)

/-- A fetch off KBSR gives the stored word and polls nothing. -/
theorem fetch_ordinary {s : State} (hp : s.pc ≠ kbsr) : fetch s = .done (s.word s.pc) (pcPast s) :=
  memRead_ordinary (pcPast s) hp

theorem fetch_kbsr {s : State} (hp : s.pc = kbsr) : fetch s = memRead kbsr (pcPast s) :=
  congrArg (memRead · (pcPast s)) hp

theorem step_ordinary {s : State} (hr : s.run = .running) (hh : s.held = none) (hp : s.pc ≠ kbsr) :
    step s = exec (decode (s.word s.pc)) (pcPast s) :=
  step_of_fetch hr hh (fetch_ordinary hp)

/-- Settles O43: the fetch is the `MemRead` of the old PC in the state whose PC is one past. -/
theorem stepRunsTheDecodedInstruction : Obligations.StepRunsTheDecodedInstruction :=
  ⟨fun _ => step_ordinary, fun _ _ _ => step_of_fetch, fun _ _ => step_of_fetch_stopped⟩

/-- Settles O44: a step looks at RUN first. -/
theorem stoppedCoreDoesNotChange : Obligations.StoppedCoreDoesNotChange := fun _ => step_stopped

theorem withFetchWord_word_pc (s : State) (nbits w : Nat) :
    (s.withFetchWord nbits w).word s.pc = BitVec.ofNat 16 w := memWrite_word_same s.pc (BitVec.ofNat 16 w) s

theorem decodeTableWord_of_lt {w : Nat} (h : w < 65536) :
    decodeTableWord 16 w = some (decode (BitVec.ofNat 16 w)) := by
  rw [decodeTableWord, decodeBits, if_pos ⟨rfl, h⟩]

/-- Settles O60: the step fetches the word that was placed at the PC. -/
theorem fetchWordIsRunByTheNextStep : Obligations.FetchWordIsRunByTheNextStep := by
  intro s w hp hw
  have hstep := step_ordinary (s := s.withFetchWord 16 w) rfl rfl hp
  exact ⟨_, decodeTableWord_of_lt hw, withFetchWord_word_pc s 16 w ▸ hstep⟩

/-! ### Instructions that are stored or polled just before they run -/

theorem addressAt_zero (base : Word) : addressAt base (0 : BitVec 9) = base := by
  rw [addressAt, show sext (0 : BitVec 9) = 0 by decide]
  exact BitVec.add_zero base

/-- ST with offset 0 stores at the address after itself. -/
theorem exec_st_zero (sr : Reg) (s : State) : exec (.st sr 0) s = .next (memWrite s.pc (s.reg sr) s) := by
  rw [exec, execSt, addressAt_zero]

theorem step_st_zero {s : State} {sr : Reg} (hr : s.run = .running) (hh : s.held = none) (hp : s.pc ≠ kbsr)
    (hst : decode (s.word s.pc) = .st sr 0) : step s = .next (memWrite (s.pc + 1) (s.reg sr) (pcPast s)) := by
  rw [step_ordinary hr hh hp, hst]
  exact exec_st_zero sr (pcPast s)

/-- Settles O57: the store leaves a running core at the word it has written. -/
theorem storeToTheNextAddressIsExecutedNext : Obligations.StoreToTheNextAddressIsExecutedNext := by
  intro s sr hr hh hp hp1 hst
  have hword := memWrite_word_same (s.pc + 1) (s.reg sr) (pcPast s)
  have hnext := step_ordinary (s := memWrite (s.pc + 1) (s.reg sr) (pcPast s)) hr hh hp1
  exact ⟨_, step_st_zero hr hh hp hst, hword, hnext.trans (congrArg (fun w => exec (decode w) _) hword)⟩

theorem decode_0x8000 : decode 0x8000 = .rti := by decide

theorem decode_zero : decode 0 = .br false false false 0 := by decide

/-- BR with an empty condition field is never taken. -/
theorem exec_br_never (off : BitVec 9) (s : State) : exec (.br false false false off) s = .next s := by
  have h : branchTaken false false false s.cond = false := by
    simpa using (branchTaken_iff false false false s.cond).not
  simp [exec, execBr, h]

/-- Settles O58: the word executed is the status word of the poll, an RTI or a branch never taken. -/
theorem fetchFromKbsrExecutesTheUpdatedWord : Obligations.FetchFromKbsrExecutesTheUpdatedWord := by
  constructor
  · intro s ch rest hr hh hp hw hi hk ha
    have hst := statusReady_of_low_bits_zero s.params.pollMode hw
    have hf : fetch s = .done 0x8000 (pollTook ch rest (pcPast s)) :=
      (fetch_kbsr hp).trans (hst ▸ memRead_kbsr_takes (s := pcPast s) hi hk ha)
    obtain ⟨hregs, hcond, hpc, hheld, hparams, hout, hwords⟩ := pollTook_frame (s := pcPast s) hi
    exact ⟨raiseFatal .illegalOpcode (pollTook ch rest (pcPast s)),
      (step_of_fetch hr hh hf).trans (by rw [decode_0x8000]; rfl), rfl, hpc.trans (congrArg (· + 1) hp),
      (pollTook_kbsr ch rest (pcPast s)).trans hst, pollTook_kbdr ch rest (pcPast s), rfl, hout, hwords, hregs, hcond,
      hheld.trans hh, hparams⟩
  · intro s hr hh hp hw hk ha
    have hst := statusIdle_of_low_bits_zero s.params.pollMode hw
    have hf : fetch s = .done 0 (pollIdle (pcPast s)) :=
      (fetch_kbsr hp).trans (hst ▸ memRead_kbsr_idle (s := pcPast s) hk ha)
    obtain ⟨hregs, hcond, hpc, hheld, hparams, hout, -⟩ := pollIdle_frame (pcPast s)
    exact ⟨pollIdle (pcPast s), (step_of_fetch hr hh hf).trans (by rw [decode_zero, exec_br_never]), hr,
      hpc.trans (congrArg (· + 1) hp), (pollIdle_kbsr (pcPast s)).trans hst, fun a => pollIdle_word (pcPast s), rfl,
      hout, hregs, hcond, hheld.trans hh, hparams⟩

end Sys2Proof.Machine
end

section
/-! PROOFS. The encoding (30_encoding.md). All of it turns on one predicate, `Reads w i`: the word's fields are those of
the instruction. It is decoding to a well-formed instruction, holds of the instruction's own word, and is agreeing with
such a word off the ignored bits; its row half is being selected by the table's row. -/

namespace Sys2Proof
open Laws.OpcodeClass (classOf)

/-! ### Fields -/

/-- Where a mask covers exactly some fields, words agree under it exactly when they agree in these. -/
theorem and_eq_and_iff_fields {m : Word} (parts : List (Nat × Nat))
    (hm : ∀ k < 16, m.getLsbD k = true ↔ ∃ p ∈ parts, p.1 ≤ k ∧ k < p.1 + p.2) (w w' : Word) :
    w &&& m = w' &&& m ↔ ∀ p ∈ parts, field w p.1 p.2 = field w' p.1 p.2 := by
  constructor
  · intro h p hp
    ext j hj
    by_cases hk : p.1 + j < 16
    · have hbit : m.getLsbD (p.1 + j) = true := (hm _ hk).mpr ⟨p, hp, by omega, by omega⟩
      simpa [field, hbit] using congrArg (·.getLsbD (p.1 + j)) h
    · simp [field, BitVec.getLsbD_of_ge _ _ (Nat.le_of_not_lt hk)]
  · intro h
    ext k hk
    cases hbit : m.getLsbD k with
    | false => simp [hbit, ← BitVec.getLsbD_eq_getElem]
    | true =>
      obtain ⟨p, hp, hlo, hhi⟩ := (hm k hk).mp hbit
      have hj := congrArg (·.getLsbD (k - p.1)) (h p hp)
      have hin : k - p.1 < p.2 := by omega
      simpa [field, hin, Nat.add_sub_cancel' hlo, hbit, ← BitVec.getLsbD_eq_getElem] using hj

theorem reg_ofBits_inj {a b : BitVec 3} : Reg.ofBits a = Reg.ofBits b ↔ a = b :=
  ⟨fun h => by rw [← reg_bits_ofBits a, h, reg_bits_ofBits], congrArg _⟩

theorem opcode_ofBits_inj {a b : BitVec 4} : Opcode.ofBits a = Opcode.ofBits b ↔ a = b :=
  ⟨fun h => by rw [← opcode_bits_ofBits a, h, opcode_bits_ofBits], congrArg _⟩

theorem field_opcode_eq_iff (w w' : Word) : field w 12 4 = field w' 12 4 ↔ opcodeOf w = opcodeOf w' :=
  opcode_ofBits_inj.symm

theorem field_DR_eq_iff (w w' : Word) : field w 9 3 = field w' 9 3 ↔ fieldDR w = fieldDR w' := reg_ofBits_inj.symm

theorem field_SR1_eq_iff (w w' : Word) : field w 6 3 = field w' 6 3 ↔ fieldSR1 w = fieldSR1 w' := reg_ofBits_inj.symm

theorem field_SR2_eq_iff (w w' : Word) : field w 0 3 = field w' 0 3 ↔ fieldSR2 w = fieldSR2 w' := reg_ofBits_inj.symm

theorem field_bit (w : Word) (k : Nat) : field w k 1 = bit (w.getLsbD k) := by
  ext j hj
  obtain rfl : j = 0 := by omega
  simp [field, bit]

theorem bit_inj {a b : Bool} : bit a = bit b ↔ a = b := by revert a b; decide

theorem getLsbD_of_field {w : Word} {k : Nat} {b : Bool} (h : w.extractLsb' k 1 = bit b) : w.getLsbD k = b :=
  bit_inj.mp ((field_bit w k).symm.trans h)

/-! ### What the decoder reads -/

/-- What the row of an instruction fixes besides the opcode class (R91): the bit that tells two forms apart, R7 as the
base of RET, and the vector of a service. -/
@[simp] def RowBits (w : Word) : Instr → Prop
  | .addReg _ _ _ | .andReg _ _ _ => w.getLsbD 5 = false
  | .addImm _ _ _ | .andImm _ _ _ => w.getLsbD 5 = true
  | .jsr _ => w.getLsbD 11 = true
  | .jsrr _ => w.getLsbD 11 = false
  | .ret => fieldSR1 w = .r7
  | .getc => field w 0 8 = 0x20
  | .out => field w 0 8 = 0x21
  | .puts => field w 0 8 = 0x22
  | .inTrap => field w 0 8 = 0x23
  | .putsp => field w 0 8 = 0x24
  | .halt => field w 0 8 = 0x25
  | .br _ _ _ _ | .ld _ _ | .st _ _ | .ldr _ _ _ | .str _ _ _ | .rti | .notReg _ _ | .ldi _ _ | .sti _ _ | .jmp _
  | .res | .lea _ _ | .trapUndefined _ => True

/-- The operand fields of a word hold the operands of an instruction (R82 to R85). -/
@[simp] def OperandBits (w : Word) : Instr → Prop
  | .br n z p off => w.getLsbD 11 = n ∧ w.getLsbD 10 = z ∧ w.getLsbD 9 = p ∧ field w 0 9 = off
  | .addReg dr sr1 sr2 | .andReg dr sr1 sr2 => fieldDR w = dr ∧ fieldSR1 w = sr1 ∧ fieldSR2 w = sr2
  | .addImm dr sr1 imm | .andImm dr sr1 imm => fieldDR w = dr ∧ fieldSR1 w = sr1 ∧ field w 0 5 = imm
  | .ld r off | .ldi r off | .lea r off | .st r off | .sti r off => fieldDR w = r ∧ field w 0 9 = off
  | .ldr r base off | .str r base off => fieldDR w = r ∧ fieldSR1 w = base ∧ field w 0 6 = off
  | .notReg dr sr => fieldDR w = dr ∧ fieldSR1 w = sr
  | .jsr off => field w 0 11 = off
  | .jsrr base | .jmp base => fieldSR1 w = base
  | .trapUndefined v => field w 0 8 = v
  | .rti | .ret | .res | .getc | .out | .puts | .inTrap | .putsp | .halt => True

/-- A word is in the row of an instruction (R91). -/
@[simp] def InRow (w : Word) (i : Instr) : Prop := opcodeOf w = classOf i ∧ RowBits w i

/-- A word is in the row of an instruction and has its operands. -/
@[simp] def Reads (w : Word) (i : Instr) : Prop := InRow w i ∧ OperandBits w i

theorem decodeTrap_of_not_defined {v : BitVec 8} (h : definedVector v = false) : decodeTrap v = .trapUndefined v :=
  decodeTrap_undefined (by simp [definedVector] at h; omega)

/-- What a word is read as, it decodes to. -/
theorem decode_of_reads {w : Word} {i : Instr} (hi : WellFormed i = true) (h : Reads w i) : decode w = i := by
  obtain ⟨⟨hop, hrow⟩, hargs⟩ := h
  cases i <;> simp only [classOf, RowBits, OperandBits] at hop hrow hargs
  case jmp => simp only [decode, hop, hargs]; exact decodeJump_ne (of_decide_eq_true hi)
  case trapUndefined =>
    simp only [decode, hop, hargs]
    exact decodeTrap_of_not_defined (by simpa [WellFormed] using hi)
  case ret | getc | out | puts | inTrap | putsp | halt => simp only [decode, hop, hrow]; rfl
  all_goals simp only [decode, hop, hrow, hargs, if_true, Bool.false_eq_true, if_false]

theorem decodeJump_cases (base : Reg) :
    (base = .r7 ∧ decodeJump base = .ret) ∨ (base ≠ .r7 ∧ decodeJump base = .jmp base) := by
  cases base <;> decide

theorem decodeTrap_cases (v : BitVec 8) :
    (v = 0x20 ∧ decodeTrap v = .getc) ∨ (v = 0x21 ∧ decodeTrap v = .out) ∨ (v = 0x22 ∧ decodeTrap v = .puts) ∨
    (v = 0x23 ∧ decodeTrap v = .inTrap) ∨ (v = 0x24 ∧ decodeTrap v = .putsp) ∨ (v = 0x25 ∧ decodeTrap v = .halt) ∨
    (definedVector v = false ∧ decodeTrap v = .trapUndefined v) := by
  revert v
  decide

/-- What a word decodes to is well-formed, and the word is read as it. -/
theorem decode_reads (w : Word) : WellFormed (decode w) = true ∧ Reads w (decode w) := by
  cases hop : opcodeOf w <;> simp only [decode, hop]
  case add | and | jsr => split <;> simp_all [WellFormed, classOf]
  case jmp =>
    rcases decodeJump_cases (fieldSR1 w) with ⟨hb, e⟩ | ⟨hb, e⟩ <;> rw [e] <;>
      simp [WellFormed, classOf, hop, hb]
  case trap =>
    rcases decodeTrap_cases (field w 0 8) with ⟨hv, e⟩ | ⟨hv, e⟩ | ⟨hv, e⟩ | ⟨hv, e⟩ | ⟨hv, e⟩ | ⟨hv, e⟩ | ⟨hv, e⟩ <;>
      rw [e] <;> simp [WellFormed, classOf, hop, hv]
  all_goals simp [WellFormed, classOf, hop]

/-! ### What an instruction's word is read as -/

theorem opcodeOf_encode (i : Instr) : opcodeOf (encode i) = classOf i := by
  cases i with
  | br n z p off => exact Laws.OpcodeClass.br n z p off
  | addReg dr sr1 sr2 => exact Laws.OpcodeClass.addReg dr sr1 sr2
  | addImm dr sr1 imm => exact Laws.OpcodeClass.addImm dr sr1 imm
  | ld dr off => exact Laws.OpcodeClass.ld dr off
  | st sr off => exact Laws.OpcodeClass.st sr off
  | jsr off => exact Laws.OpcodeClass.jsr off
  | jsrr base => exact Laws.OpcodeClass.jsrr base
  | andReg dr sr1 sr2 => exact Laws.OpcodeClass.andReg dr sr1 sr2
  | andImm dr sr1 imm => exact Laws.OpcodeClass.andImm dr sr1 imm
  | ldr dr base off => exact Laws.OpcodeClass.ldr dr base off
  | str sr base off => exact Laws.OpcodeClass.str sr base off
  | notReg dr sr => exact Laws.OpcodeClass.notReg dr sr
  | ldi dr off => exact Laws.OpcodeClass.ldi dr off
  | sti sr off => exact Laws.OpcodeClass.sti sr off
  | jmp base => exact Laws.OpcodeClass.jmp base
  | lea dr off => exact Laws.OpcodeClass.lea dr off
  | trapUndefined v => exact Laws.OpcodeClass.trapUndefined v
  | rti | ret | res | getc | out | puts | inTrap | putsp | halt => rfl

/-! The fields of a word made of its format's parts, format by format (R82 to R85). -/

theorem brWord_fields (o : BitVec 4) (n z p : BitVec 1) (off : BitVec 9) :
    (o ++ n ++ z ++ p ++ off).extractLsb' 11 1 = n ∧ (o ++ n ++ z ++ p ++ off).extractLsb' 10 1 = z ∧
    (o ++ n ++ z ++ p ++ off).extractLsb' 9 1 = p ∧ (o ++ n ++ z ++ p ++ off).extractLsb' 0 9 = off := by
  simp [extract_high, extract_low, -Nat.reduceAdd]

theorem regOffWord_fields (o : BitVec 4) (r : BitVec 3) (off : BitVec 9) :
    (o ++ r ++ off).extractLsb' 9 3 = r ∧ (o ++ r ++ off).extractLsb' 0 9 = off := by
  simp [extract_high, extract_low, -Nat.reduceAdd]

theorem twoRegsWord_fields (o : BitVec 4) (r q : BitVec 3) (off : BitVec 6) :
    (o ++ r ++ q ++ off).extractLsb' 9 3 = r ∧ (o ++ r ++ q ++ off).extractLsb' 6 3 = q ∧
    (o ++ r ++ q ++ off).extractLsb' 0 6 = off := by
  simp [extract_high, extract_low, -Nat.reduceAdd]

theorem immWord_fields (o : BitVec 4) (r q : BitVec 3) (b : BitVec 1) (imm : BitVec 5) :
    (o ++ r ++ q ++ b ++ imm).extractLsb' 9 3 = r ∧ (o ++ r ++ q ++ b ++ imm).extractLsb' 6 3 = q ∧
    (o ++ r ++ q ++ b ++ imm).extractLsb' 5 1 = b ∧ (o ++ r ++ q ++ b ++ imm).extractLsb' 0 5 = imm := by
  simp [extract_high, extract_low, -Nat.reduceAdd]

theorem threeRegsWord_fields (o : BitVec 4) (r q t : BitVec 3) (b : BitVec 1) (x : BitVec 2) :
    (o ++ r ++ q ++ b ++ x ++ t).extractLsb' 9 3 = r ∧ (o ++ r ++ q ++ b ++ x ++ t).extractLsb' 6 3 = q ∧
    (o ++ r ++ q ++ b ++ x ++ t).extractLsb' 5 1 = b ∧ (o ++ r ++ q ++ b ++ x ++ t).extractLsb' 0 3 = t := by
  simp [extract_high, extract_low, -Nat.reduceAdd]

theorem jsrWord_fields (o : BitVec 4) (b : BitVec 1) (off : BitVec 11) :
    (o ++ b ++ off).extractLsb' 11 1 = b ∧ (o ++ b ++ off).extractLsb' 0 11 = off := by
  simp [extract_high, extract_low, -Nat.reduceAdd]

theorem rowBits_encode (i : Instr) : RowBits (encode i) i := by
  cases i with
  | addReg dr sr1 sr2 | andReg dr sr1 sr2 =>
    obtain ⟨-, -, hbit, -⟩ := threeRegsWord_fields _ dr.bits sr1.bits sr2.bits 0 0
    exact getLsbD_of_field hbit
  | addImm dr sr1 imm | andImm dr sr1 imm =>
    obtain ⟨-, -, hbit, -⟩ := immWord_fields _ dr.bits sr1.bits 1 imm
    exact getLsbD_of_field hbit
  | jsr off => exact getLsbD_of_field (jsrWord_fields 4 1 off).1
  | jsrr base => cases base <;> rfl
  | ret | getc | out | puts | inTrap | putsp | halt => rfl
  | _ => trivial

theorem operandBits_encode (i : Instr) : OperandBits (encode i) i := by
  cases i with
  | br n z p off =>
    obtain ⟨hn, hz, hp, hoff⟩ := brWord_fields 0 (bit n) (bit z) (bit p) off
    exact ⟨getLsbD_of_field hn, getLsbD_of_field hz, getLsbD_of_field hp, hoff⟩
  | addReg dr sr1 sr2 | andReg dr sr1 sr2 => simp [fieldDR, fieldSR1, fieldSR2, field, encode, threeRegsWord_fields]
  | addImm dr sr1 imm | andImm dr sr1 imm => simp [fieldDR, fieldSR1, field, encode, immWord_fields]
  | ld r off | ldi r off | lea r off | st r off | sti r off => simp [fieldDR, field, encode, regOffWord_fields]
  | ldr r base off | str r base off | notReg r base => simp [fieldDR, fieldSR1, field, encode, twoRegsWord_fields]
  | jsr off => exact (jsrWord_fields 4 1 off).2
  | jsrr base | jmp base => cases base <;> rfl
  | trapUndefined v => exact (extract_low (0b1111#4 ++ 0b0000#4) v (by decide)).trans (extract_all v)
  | _ => trivial

theorem reads_encode (i : Instr) : Reads (encode i) i := ⟨⟨opcodeOf_encode i, rowBits_encode i⟩, operandBits_encode i⟩

/-- Settles O1: an instruction's word is read as the instruction, and what is read is what is decoded. -/
theorem decodeOfEncodeIsTheInstruction : Obligations.DecodeOfEncodeIsTheInstruction :=
  fun i hi => decode_of_reads hi (reads_encode i)

/-! ### The bits that are not ignored -/

/-- The fields of an instruction's format, by lowest bit and width: all bits of the word but the ignored ones (R82 to
R85). -/
def keptFields : Instr → List (Nat × Nat)
  | .br _ _ _ _ => [(12, 4), (11, 1), (10, 1), (9, 1), (0, 9)]
  | .addReg _ _ _ | .andReg _ _ _ => [(12, 4), (9, 3), (6, 3), (5, 1), (0, 3)]
  | .addImm _ _ _ | .andImm _ _ _ => [(12, 4), (9, 3), (6, 3), (5, 1), (0, 5)]
  | .ld _ _ | .ldi _ _ | .lea _ _ | .st _ _ | .sti _ _ => [(12, 4), (9, 3), (0, 9)]
  | .ldr _ _ _ | .str _ _ _ => [(12, 4), (9, 3), (6, 3), (0, 6)]
  | .notReg _ _ => [(12, 4), (9, 3), (6, 3)]
  | .jsr _ => [(12, 4), (11, 1), (0, 11)]
  | .jsrr _ => [(12, 4), (11, 1), (6, 3)]
  | .jmp _ | .ret => [(12, 4), (6, 3)]
  | .rti | .res => [(12, 4)]
  | .getc | .out | .puts | .inTrap | .putsp | .halt | .trapUndefined _ => [(12, 4), (0, 8)]

theorem keptFields_cover (i : Instr) : ∀ k < 16, (~~~(rowOf i).ignored).getLsbD k = true ↔
    ∃ p ∈ keptFields i, p.1 ≤ k ∧ k < p.1 + p.2 := by
  cases i <;> simp only [rowOf, keptFields] <;> decide

/-- The bits a format does not ignore are the bits the decoder reads (R88): field by field, to hold what a word read as
the instruction holds is to hold the instruction's own opcode, row bits or operand. -/
theorem kept_eq_iff_reads {w w' : Word} {i : Instr} (h : Reads w i) :
    w' &&& ~~~(rowOf i).ignored = w &&& ~~~(rowOf i).ignored ↔ Reads w' i := by
  obtain ⟨⟨hop, hrow⟩, hargs⟩ := h
  rw [and_eq_and_iff_fields _ (keptFields_cover i)]
  cases i <;> simp only [classOf, RowBits, OperandBits] at hop hrow hargs <;>
    simp only [keptFields, List.forall_mem_cons, List.not_mem_nil, false_imp_iff, implies_true, field_opcode_eq_iff,
      field_DR_eq_iff, field_SR1_eq_iff, field_SR2_eq_iff, field_bit, bit_inj, hop, hrow, hargs, Reads, InRow, classOf,
      RowBits, OperandBits, and_true, and_assoc, and_left_comm]

/-- Settles O2: the word and the word of its instruction are both read as the instruction. -/
theorem encodeOfDecodeAgreesOffIgnoredBits : Obligations.EncodeOfDecodeAgreesOffIgnoredBits := by
  intro w
  obtain ⟨hwf, hreads⟩ := decode_reads w
  exact ⟨hwf, (kept_eq_iff_reads hreads).mpr (reads_encode _)⟩

/-- Settles O4: a word with the same kept bits is read as the same instruction. -/
theorem ignoredBitsDoNotMatter : Obligations.IgnoredBitsDoNotMatter := by
  intro w w' h
  obtain ⟨hwf, hreads⟩ := decode_reads w
  exact decode_of_reads hwf ((kept_eq_iff_reads hreads).mp h.symm)

/-! ### The rows of the opcode table -/

/-- The fields a row's mask covers. -/
def rowFields : Instr → List (Nat × Nat)
  | .addReg _ _ _ | .andReg _ _ _ | .addImm _ _ _ | .andImm _ _ _ => [(12, 4), (5, 1)]
  | .jsr _ | .jsrr _ => [(12, 4), (11, 1)]
  | .ret => [(12, 4), (6, 3)]
  | .getc | .out | .puts | .inTrap | .putsp | .halt => [(12, 4), (0, 8)]
  | .br _ _ _ _ | .ld _ _ | .st _ _ | .ldr _ _ _ | .str _ _ _ | .rti | .notReg _ _ | .ldi _ _ | .sti _ _ | .jmp _
  | .res | .lea _ _ | .trapUndefined _ => [(12, 4)]

theorem rowFields_cover (i : Instr) : ∀ k < 16, (rowOf i).mask.getLsbD k = true ↔
    ∃ p ∈ rowFields i, p.1 ≤ k ∧ k < p.1 + p.2 := by
  cases i <;> simp only [rowOf, rowFields] <;> decide

theorem pattern_and_mask (i : Instr) : (rowOf i).pattern &&& (rowOf i).mask = (rowOf i).pattern := by
  cases i <;> simp only [rowOf] <;> decide

theorem pattern_inRow (i : Instr) : InRow (rowOf i).pattern i := by
  cases i <;> simp only [rowOf, InRow, classOf, RowBits] <;> decide

/-- Mask and pattern select exactly the words in the row: the pattern is one of them (R91). -/
theorem selects_iff_inRow (i : Instr) (w : Word) : (rowOf i).selects w = true ↔ InRow w i := by
  obtain ⟨hop, hrow⟩ := pattern_inRow i
  rw [OpcodeRow.selects, decide_eq_true_iff, ← pattern_and_mask i, and_eq_and_iff_fields _ (rowFields_cover i)]
  cases i <;> simp only [classOf, RowBits] at hop hrow <;>
    simp only [rowFields, List.forall_mem_cons, List.not_mem_nil, false_imp_iff, implies_true, field_opcode_eq_iff,
      field_SR1_eq_iff, field_bit, bit_inj, hop, hrow, InRow, classOf, RowBits, and_true]

/-- A word in the row of an instruction decodes to one of that row, but for the two overlaps (R91). -/
theorem rowOf_decode_of_inRow {w : Word} {i : Instr} (h : InRow w i) :
    rowOf i = rowOf (decode w) ∨
      ((∃ base, i = .jmp base) ∧ decode w = .ret) ∨
      ((∃ v, i = .trapUndefined v) ∧
        decode w ∈ [Instr.getc, Instr.out, Instr.puts, Instr.inTrap, Instr.putsp, Instr.halt]) := by
  obtain ⟨hop, hrow⟩ := h
  cases i <;> simp only [classOf, RowBits] at hop hrow
  case jmp base => rcases decodeJump_cases (fieldSR1 w) with ⟨-, e⟩ | ⟨-, e⟩ <;> simp [decode, hop, e, rowOf]
  case trapUndefined v =>
    rcases decodeTrap_cases (field w 0 8) with ⟨-, e⟩ | ⟨-, e⟩ | ⟨-, e⟩ | ⟨-, e⟩ | ⟨-, e⟩ | ⟨-, e⟩ | ⟨-, e⟩ <;>
      simp [decode, hop, e, rowOf]
  case ret | getc | out | puts | inTrap | putsp | halt => simp only [decode, hop, hrow]; exact .inl rfl
  all_goals simp only [decode, hop, hrow, if_true, Bool.false_eq_true, if_false, rowOf, true_or]

/-- Settles O3: a word is in the row of its instruction, and a row it is in is that row, JMP's or the fallback row. -/
theorem everyWordSelectsOneRow : Obligations.EveryWordSelectsOneRow := by
  intro w
  obtain ⟨-, hrow, -⟩ := decode_reads w
  exact ⟨(selects_iff_inRow _ w).mpr hrow, fun i _ h => rowOf_decode_of_inRow ((selects_iff_inRow i w).mp h)⟩

/-! ### The illegal encodings -/

theorem decode_eq_iff {w : Word} {i : Instr} : decode w = i ↔ WellFormed i = true ∧ Reads w i :=
  ⟨fun h => h ▸ decode_reads w, fun ⟨hwf, hreads⟩ => decode_of_reads hwf hreads⟩

/-- The words of an opcode class: 4096 in a row (R86). -/
theorem opcodeOf_eq_iff (w : Word) (o : Opcode) :
    opcodeOf w = o ↔ o.bits.toNat * 4096 ≤ w.toNat ∧ w.toNat < (o.bits.toNat + 1) * 4096 := by
  have hbits : opcodeOf w = o ↔ field w 12 4 = o.bits := by
    rw [opcodeOf, ← opcode_ofBits_inj, opcode_ofBits_bits]
  have hw := w.isLt
  rw [hbits, ← BitVec.toNat_inj, field, BitVec.extractLsb'_toNat, Nat.shiftRight_eq_div_pow]
  omega

theorem decode_eq_rti_iff (w : Word) : decode w = .rti ↔ opcodeOf w = .rti := by
  simp [decode_eq_iff, WellFormed, classOf]

theorem decode_eq_res_iff (w : Word) : decode w = .res ↔ opcodeOf w = .res := by
  simp [decode_eq_iff, WellFormed, classOf]

theorem decode_undefined_iff (w : Word) :
    (∃ v, decode w = .trapUndefined v) ↔ opcodeOf w = .trap ∧ definedVector (field w 0 8) = false := by
  simp [decode_eq_iff, WellFormed, classOf, and_comm]

theorem definedVector_low_byte (w : Word) :
    definedVector (field w 0 8) = false ↔ ¬(0x20 ≤ w.toNat % 256 ∧ w.toNat % 256 ≤ 0x25) := by
  rw [definedVector, decide_eq_false_iff_not, field, BitVec.extractLsb'_toNat, Nat.shiftRight_zero]

theorem decode_eq_rti_iff_range (w : Word) : decode w = .rti ↔ 0x8000 ≤ w.toNat ∧ w.toNat ≤ 0x8FFF := by
  rw [decode_eq_rti_iff, opcodeOf_eq_iff, show Opcode.rti.bits.toNat = 8 from rfl]
  omega

theorem decode_eq_res_iff_range (w : Word) : decode w = .res ↔ 0xD000 ≤ w.toNat ∧ w.toNat ≤ 0xDFFF := by
  rw [decode_eq_res_iff, opcodeOf_eq_iff, show Opcode.res.bits.toNat = 13 from rfl]
  omega

theorem decode_undefined_iff_range (w : Word) : (∃ v, decode w = .trapUndefined v) ↔
    0xF000 ≤ w.toNat ∧ ¬(0x20 ≤ w.toNat % 256 ∧ w.toNat % 256 ≤ 0x25) := by
  have hw := w.isLt
  rw [decode_undefined_iff, definedVector_low_byte, opcodeOf_eq_iff, show Opcode.trap.bits.toNat = 15 from rfl]
  omega

end Sys2Proof

namespace Sys2Proof.Machine

/-- RUN is as it was, or the console has failed: what every instruction does to RUN that does not itself write it. -/
def RunKeptOrIoFailure (s t : State) : Prop := t.run = s.run ∨ t.run = .faulted .ioFailure

theorem Result.Plain.finish_run {α : Type} {s : State} {r : Result α} {k : α → State → State} (h : r.Plain s)
    (hk : ∀ a u, RunKeptOrIoFailure u (k a u)) : RunKeptOrIoFailure s (r.finish k) := by
  rcases h.finish_cases k with ⟨a, u, hu, e⟩ | hf
  · exact e ▸ (hk a u).imp_left fun h => h.trans hu.run
  · exact .inr hf.run

theorem ServiceEnds.run {s t : State} (h : ServiceEnds s t) : RunKeptOrIoFailure s t :=
  h.ends.imp And.left fun ⟨_, hrun, _⟩ => hrun

theorem loadInto_run (dr : Reg) (a : Word) (s : State) : RunKeptOrIoFailure s (loadInto dr a s) :=
  (memRead_plain a s).finish_run fun _ _ => .inl rfl

/-- The instructions that write RUN, and what they write (R157 to R160). -/
def writesRun : Instr → Option Run
  | .halt => some .halted
  | .rti | .res => some (.faulted .illegalOpcode)
  | .trapUndefined _ => some (.faulted .illegalTrapVector)
  | _ => none

theorem exec_run_of_written {i : Instr} {s t : State} {r : Run} (h : exec i s = .next t) (hi : writesRun i = some r) :
    t.run = r := by
  cases i <;> cases hi <;> cases h <;> rfl

theorem exec_run_of_not_written {i : Instr} {s t : State} (h : exec i s = .next t) (hi : writesRun i = none) :
    RunKeptOrIoFailure s t := by
  cases i <;> injection h with h <;> subst h
  case halt | rti | res | trapUndefined => cases hi
  case ld | ldr => exact loadInto_run _ _ s
  case ldi => exact (memRead_plain _ s).finish_run fun _ _ => loadInto_run _ _ _
  case sti => exact (memRead_plain _ s).finish_run fun _ _ => .inl rfl
  case getc => exact (getcRead_ends s).run
  case out => exact (out_ends s).run
  case inTrap => exact (inTrap_ends s).run
  case puts => exact (putsFrom_ends _ s).1.run
  case putsp => exact (putspFrom_ends _ s).1.run
  case br => exact .inl (by split <;> rfl)
  all_goals exact .inl rfl

/-- A running core is given RUN by an instruction that writes it, and by no other but for a failing console. -/
theorem exec_run_eq_iff {i : Instr} {s t : State} {r : Run} (hs : s.run = .running) (h : exec i s = .next t)
    (hr : r ≠ .running) (hio : r ≠ .faulted .ioFailure) : t.run = r ↔ writesRun i = some r := by
  cases hi : writesRun i with
  | some r' => rw [exec_run_of_written h hi, Option.some_inj]
  | none =>
    refine iff_of_false (fun ht => ?_) (by simp)
    rcases exec_run_of_not_written h hi with hkept | hfail
    · exact hr (ht.symm.trans (hkept.trans hs))
    · exact hio (ht.symm.trans hfail)

theorem writesRun_illegalOpcode_iff (i : Instr) :
    writesRun i = some (.faulted .illegalOpcode) ↔ i = .rti ∨ i = .res := by
  cases i <;> simp [writesRun]

theorem writesRun_illegalTrapVector_iff (i : Instr) :
    writesRun i = some (.faulted .illegalTrapVector) ↔ ∃ v, i = .trapUndefined v := by
  cases i <;> simp [writesRun]

/-- Settles O5: the words are those of an opcode class, and of TRAP's the ones no service has; only their instructions
write RUN with these causes. -/
theorem illegalEncodingsAreExactlyThese : Obligations.IllegalEncodingsAreExactlyThese := by
  refine ⟨fun w => ⟨decode_eq_rti_iff_range w, decode_eq_res_iff_range w, decode_undefined_iff_range w⟩,
    fun w s t hs h => ⟨?_, ?_⟩⟩
  · rw [exec_run_eq_iff hs h (by decide) (by decide), writesRun_illegalOpcode_iff, decode_eq_rti_iff_range,
      decode_eq_res_iff_range]
  · rw [exec_run_eq_iff hs h (by decide) (by decide), writesRun_illegalTrapVector_iff, decode_undefined_iff_range]

end Sys2Proof.Machine
end

section
/-! PROOFS. The arithmetic and logic instructions (40_alu.md): how their words decode, and the one write each makes. -/

namespace Sys2Proof

/-! ### Decoding, by the opcode and by bit 5 -/

theorem decode_addImm {ir : Word} (hop : ir.extractLsb' 12 4 = 0b0001#4) (hbit : ir.getLsbD 5 = true) :
    decode ir = .addImm (fieldDR ir) (fieldSR1 ir) (field ir 0 5) :=
  decode_of_reads rfl ⟨⟨opcodeOf_of_field hop, hbit⟩, rfl, rfl, rfl⟩

theorem decode_addReg {ir : Word} (hop : ir.extractLsb' 12 4 = 0b0001#4) (hbit : ir.getLsbD 5 = false) :
    decode ir = .addReg (fieldDR ir) (fieldSR1 ir) (fieldSR2 ir) :=
  decode_of_reads rfl ⟨⟨opcodeOf_of_field hop, hbit⟩, rfl, rfl, rfl⟩

theorem decode_andImm {ir : Word} (hop : ir.extractLsb' 12 4 = 0b0101#4) (hbit : ir.getLsbD 5 = true) :
    decode ir = .andImm (fieldDR ir) (fieldSR1 ir) (field ir 0 5) :=
  decode_of_reads rfl ⟨⟨opcodeOf_of_field hop, hbit⟩, rfl, rfl, rfl⟩

theorem decode_andReg {ir : Word} (hop : ir.extractLsb' 12 4 = 0b0101#4) (hbit : ir.getLsbD 5 = false) :
    decode ir = .andReg (fieldDR ir) (fieldSR1 ir) (fieldSR2 ir) :=
  decode_of_reads rfl ⟨⟨opcodeOf_of_field hop, hbit⟩, rfl, rfl, rfl⟩

theorem decode_notReg {ir : Word} (hop : ir.extractLsb' 12 4 = 0b1001#4) :
    decode ir = .notReg (fieldDR ir) (fieldSR1 ir) :=
  decode_of_reads rfl ⟨⟨opcodeOf_of_field hop, trivial⟩, rfl, rfl⟩

end Sys2Proof

namespace Sys2Proof.Machine

/-! ### The write each instruction makes -/

theorem exec_addReg (dr sr1 sr2 : Reg) (s : State) :
    exec (.addReg dr sr1 sr2) s = .next (writeRegCC dr (s.reg sr1 + s.reg sr2) s) := rfl

theorem exec_addImm (dr sr1 : Reg) (imm : BitVec 5) (s : State) :
    exec (.addImm dr sr1 imm) s = .next (writeRegCC dr (s.reg sr1 + sext imm) s) := rfl

theorem exec_andReg (dr sr1 sr2 : Reg) (s : State) :
    exec (.andReg dr sr1 sr2) s = .next (writeRegCC dr (s.reg sr1 &&& s.reg sr2) s) := rfl

theorem exec_andImm (dr sr1 : Reg) (imm : BitVec 5) (s : State) :
    exec (.andImm dr sr1 imm) s = .next (writeRegCC dr (s.reg sr1 &&& sext imm) s) := rfl

theorem exec_notReg (dr sr : Reg) (s : State) : exec (.notReg dr sr) s = .next (writeRegCC dr (~~~s.reg sr) s) := rfl

/-- An instruction that writes one register with its flags completes with whatever is known of the value it writes. -/
theorem completes_of_writeRegCC {i : Instr} {dr : Reg} {v : Word} {s : State} {P : Word → Prop}
    (h : exec i s = .next (writeRegCC dr v s)) (hv : P v) :
    ∃ (t : State) (v : Word), exec i s = .next t ∧ P v ∧ WroteRegCC dr v s t :=
  ⟨_, v, h, hv, writeRegCC_wrote dr v s⟩

/-- Settles O10: the word's fields are ADD's operands, and the sum of two words is modulo 65,536; of the second operand
only the value is used. -/
theorem addAddsModulo65536AndSetsFlags : Obligations.AddAddsModulo65536AndSetsFlags := by
  refine ⟨fun ir hop => ⟨decode_addImm hop, decode_addReg hop⟩, fun dr sr1 sr2 s => ?_, fun dr sr1 imm s => ?_,
    fun dr sr1 sr2 imm s hsr2 => ?_⟩
  · exact completes_of_writeRegCC (exec_addReg dr sr1 sr2 s) (BitVec.toNat_add _ _)
  · exact completes_of_writeRegCC (exec_addImm dr sr1 imm s) (BitVec.toNat_add _ _)
  · rw [exec_addImm, exec_addReg, hsr2]

/-- Settles O11: the word's fields are AND's operands, and a bit of the result is the and of the operands' bits; of the
second operand only the value is used. -/
theorem andIsBitwiseAndSetsFlags : Obligations.AndIsBitwiseAndSetsFlags := by
  refine ⟨fun ir hop => ⟨decode_andImm hop, decode_andReg hop⟩, fun dr sr1 sr2 s => ?_, fun dr sr1 imm s => ?_,
    fun dr sr1 sr2 imm s hsr2 => ?_⟩
  · exact completes_of_writeRegCC (exec_andReg dr sr1 sr2 s) fun _ _ => BitVec.getLsbD_and
  · exact completes_of_writeRegCC (exec_andImm dr sr1 imm s) fun _ _ => BitVec.getLsbD_and
  · rw [exec_andImm, exec_andReg, hsr2]

/-- Settles O12: the word's fields are NOT's operands, and the complement of a word is the greatest word minus it. -/
theorem notComplementsAndSetsFlags : Obligations.NotComplementsAndSetsFlags :=
  ⟨fun _ => decode_notReg, fun dr sr s => completes_of_writeRegCC (exec_notReg dr sr s) BitVec.toNat_not⟩

end Sys2Proof.Machine
end

section
/-! PROOFS. Control transfer (41_control.md): how the words of BR, JMP, RET, JSR and JSRR decode, and the PC and the link
each one writes. -/

namespace Sys2Proof

/-! ### Decoding, by the opcode, by the base register and by bit 11 -/

theorem decode_br {ir : Word} (hop : ir.extractLsb' 12 4 = 0b0000#4) :
    decode ir = .br (ir.getLsbD 11) (ir.getLsbD 10) (ir.getLsbD 9) (field ir 0 9) :=
  decode_of_reads rfl ⟨⟨opcodeOf_of_field hop, trivial⟩, rfl, rfl, rfl, rfl⟩

theorem decode_ret {ir : Word} (hop : ir.extractLsb' 12 4 = 0b1100#4) (hbase : fieldSR1 ir = .r7) :
    decode ir = .ret :=
  decode_of_reads rfl ⟨⟨opcodeOf_of_field hop, hbase⟩, trivial⟩

theorem decode_jmp {ir : Word} (hop : ir.extractLsb' 12 4 = 0b1100#4) (hbase : fieldSR1 ir ≠ .r7) :
    decode ir = .jmp (fieldSR1 ir) :=
  decode_of_reads (decide_eq_true hbase) ⟨⟨opcodeOf_of_field hop, trivial⟩, rfl⟩

theorem decode_jsr {ir : Word} (hop : ir.extractLsb' 12 4 = 0b0100#4) (hbit : ir.getLsbD 11 = true) :
    decode ir = .jsr (field ir 0 11) :=
  decode_of_reads rfl ⟨⟨opcodeOf_of_field hop, hbit⟩, rfl⟩

theorem decode_jsrr {ir : Word} (hop : ir.extractLsb' 12 4 = 0b0100#4) (hbit : ir.getLsbD 11 = false) :
    decode ir = .jsrr (fieldSR1 ir) :=
  decode_of_reads rfl ⟨⟨opcodeOf_of_field hop, hbit⟩, rfl⟩

end Sys2Proof

namespace Sys2Proof.Machine

/-! ### Branches and jumps -/

theorem exec_br_taken {n z p : Bool} {s : State} (off : BitVec 9) (h : branchTaken n z p s.cond = true) :
    exec (.br n z p off) s = .next (writePc (s.pc + sext off) s) :=
  congrArg Host.Outcome.next (if_pos h)

theorem exec_br_not_taken {n z p : Bool} {s : State} (off : BitVec 9) (h : ¬branchTaken n z p s.cond = true) :
    exec (.br n z p off) s = .next s :=
  congrArg Host.Outcome.next (if_neg h)

theorem exec_jmp (base : Reg) (s : State) : exec (.jmp base) s = .next (writePc (s.reg base) s) := rfl

theorem exec_ret (s : State) : exec .ret s = .next (writePc (s.reg .r7) s) := rfl

/-- Settles O13: the word's fields are BR's operands, and the test of COND's one-hot code is a flag that matches. -/
theorem branchIsTakenWhenAFlagMatches : Obligations.BranchIsTakenWhenAFlagMatches :=
  ⟨fun _ => decode_br, fun _ _ _ off _ hmatch => exec_br_taken off ((branchTaken_iff _ _ _ _).mpr hmatch),
    fun _ _ _ off _ hmatch => exec_br_not_taken off (mt (branchTaken_iff _ _ _ _).mp hmatch)⟩

/-- Settles O14: a word of JMP's opcode is RET exactly when its base register is R7, and both write only the PC. -/
theorem jumpLoadsThePcFromTheBaseRegister : Obligations.JumpLoadsThePcFromTheBaseRegister :=
  ⟨fun _ hop => ⟨decode_ret hop, decode_jmp hop⟩, exec_jmp, exec_ret⟩

/-! ### Calls -/

theorem linkR7_reg_r7 (s : State) : (linkR7 s).reg .r7 = s.pc := writeReg_reg_same _ _ _

theorem linkR7_reg_ne {q : Reg} (s : State) (h : q ≠ .r7) : (linkR7 s).reg q = s.reg q :=
  writeReg_reg_ne _ _ h

/-- R7 got the PC, the PC got a target, and nothing else changed: what JSR and JSRR do. -/
def CalledTo (target : Word) (s t : State) : Prop :=
  t.reg .r7 = s.pc ∧ t.pc = target ∧ SameRegsBut .r7 s t ∧ t.cond = s.cond ∧ SameWords s t ∧ SameOutside s t

theorem writePc_linkR7_called (target : Word) (s : State) : CalledTo target s (writePc target (linkR7 s)) :=
  ⟨linkR7_reg_r7 s, rfl, fun _ hne => linkR7_reg_ne s hne, rfl, fun _ => rfl, rfl, rfl, rfl, rfl⟩

theorem exec_jsr (off : BitVec 11) (s : State) :
    exec (.jsr off) s = .next (writePc (s.pc + sext off) (linkR7 s)) := rfl

/-- JSRR's target is the base register as the link leaves it (R123, decision D18). -/
theorem exec_jsrr (base : Reg) (s : State) :
    exec (.jsrr base) s = .next (writePc ((linkR7 s).reg base) (linkR7 s)) := rfl

/-- Settles O15: the link, and a target that does not depend on it. -/
theorem jsrLinksAndBranches : Obligations.JsrLinksAndBranches :=
  ⟨fun _ => decode_jsr, fun off s => ⟨_, exec_jsr off s, writePc_linkR7_called _ s⟩⟩

/-- Settles O16: the base register is read after the link, so R7 gives the PC and any other register its old value. -/
theorem jsrrLinksBeforeItReadsTheBase : Obligations.JsrrLinksBeforeItReadsTheBase := by
  refine ⟨fun _ => decode_jsrr, fun base s => ?_⟩
  obtain ⟨hlink, hpc, hframe⟩ := writePc_linkR7_called ((linkR7 s).reg base) s
  refine ⟨_, exec_jsrr base s, hlink, fun hne => ?_, fun heq => ?_, hframe⟩
  · exact hpc.trans (linkR7_reg_ne s hne)
  · subst heq
    exact hpc.trans (linkR7_reg_r7 s)

end Sys2Proof.Machine
end

section
/-! PROOFS. Loads, stores and LEA (42_load_store.md): how their words decode, and each one in terms of the read and the
write it makes. -/

namespace Sys2Proof

/-! ### Decoding, by the opcode -/

theorem decode_ld {ir : Word} (hop : ir.extractLsb' 12 4 = 0b0010#4) : decode ir = .ld (fieldDR ir) (field ir 0 9) :=
  decode_of_reads rfl ⟨⟨opcodeOf_of_field hop, trivial⟩, rfl, rfl⟩

theorem decode_ldr {ir : Word} (hop : ir.extractLsb' 12 4 = 0b0110#4) :
    decode ir = .ldr (fieldDR ir) (fieldSR1 ir) (field ir 0 6) :=
  decode_of_reads rfl ⟨⟨opcodeOf_of_field hop, trivial⟩, rfl, rfl, rfl⟩

theorem decode_ldi {ir : Word} (hop : ir.extractLsb' 12 4 = 0b1010#4) : decode ir = .ldi (fieldDR ir) (field ir 0 9) :=
  decode_of_reads rfl ⟨⟨opcodeOf_of_field hop, trivial⟩, rfl, rfl⟩

theorem decode_lea {ir : Word} (hop : ir.extractLsb' 12 4 = 0b1110#4) : decode ir = .lea (fieldDR ir) (field ir 0 9) :=
  decode_of_reads rfl ⟨⟨opcodeOf_of_field hop, trivial⟩, rfl, rfl⟩

theorem decode_st {ir : Word} (hop : ir.extractLsb' 12 4 = 0b0011#4) : decode ir = .st (fieldDR ir) (field ir 0 9) :=
  decode_of_reads rfl ⟨⟨opcodeOf_of_field hop, trivial⟩, rfl, rfl⟩

theorem decode_str {ir : Word} (hop : ir.extractLsb' 12 4 = 0b0111#4) :
    decode ir = .str (fieldDR ir) (fieldSR1 ir) (field ir 0 6) :=
  decode_of_reads rfl ⟨⟨opcodeOf_of_field hop, trivial⟩, rfl, rfl, rfl⟩

theorem decode_sti {ir : Word} (hop : ir.extractLsb' 12 4 = 0b1011#4) : decode ir = .sti (fieldDR ir) (field ir 0 9) :=
  decode_of_reads rfl ⟨⟨opcodeOf_of_field hop, trivial⟩, rfl, rfl⟩

end Sys2Proof

namespace Sys2Proof.Machine

/-! ### Loads through one read -/

theorem exec_ld (dr : Reg) (off : BitVec 9) (s : State) :
    exec (.ld dr off) s = .next (loadInto dr (s.pc + sext off) s) := rfl

theorem exec_ldr (dr base : Reg) (off : BitVec 6) (s : State) :
    exec (.ldr dr base off) s = .next (loadInto dr (s.reg base + sext off) s) := rfl

theorem loadInto_ordinary {ea : Word} (dr : Reg) (s : State) (hea : ea ≠ kbsr) :
    loadInto dr ea s = writeRegCC dr (s.word ea) s :=
  (loadInto_done (memRead_ordinary s hea)).1

/-- An instruction that ends in writing a register with its flags, after reads that were answered: only that register
and COND differ from where the reads left the state, and the reads left the registers, the PC and RUN alone. -/
theorem completes_after_reads {i : Instr} {dr : Reg} {v : Word} {s s1 : State}
    (hi : exec i s = .next (writeRegCC dr v s1)) (hs : GoesOn s s1) :
    ∃ t, exec i s = .next t ∧ WroteRegCC dr v s1 t ∧
      SameRegsBut dr s t ∧ t.pc = s.pc ∧ t.run = s.run ∧ t.held = s.held ∧ t.params = s.params := by
  obtain ⟨-, -, hothers, -⟩ := writeRegCC_wrote dr v s1
  have hframe : SameRegsBut dr s (writeRegCC dr v s1) := fun q hne => (hothers q hne).trans (reg_of_regs hs.regs q)
  exact ⟨_, hi, writeRegCC_wrote dr v s1, hframe, hs.pc, hs.run, hs.held, hs.params⟩

/-- The three clauses of a load: an ordinary read, a read that is answered, a read that stops the step. -/
theorem loadsFrom_of_loadInto {i : Instr} {dr : Reg} {ea : Word} {s : State}
    (hi : exec i s = .next (loadInto dr ea s)) : LoadsFrom i dr ea s := by
  refine ⟨fun hea => ?_, fun v s1 hread => ?_, fun s1 hread => ?_⟩
  · exact ⟨_, hi.trans (congrArg _ (loadInto_ordinary dr s hea)), writeRegCC_wrote dr _ s⟩
  · obtain ⟨hload, hs⟩ := loadInto_done (dr := dr) hread
    exact completes_after_reads (hi.trans (congrArg _ hload)) hs
  · obtain ⟨hload, hfails⟩ := loadInto_stopped (dr := dr) hread
    exact ⟨hi.trans (congrArg _ hload), (memRead_stopped hread).1, stoppedByIo_of_fails hfails⟩

/-- Settles O17: LD is one load, from the PC plus the offset. -/
theorem ldLoadsFromThePcRelativeAddress : Obligations.LdLoadsFromThePcRelativeAddress :=
  ⟨fun _ => decode_ld, fun dr off s => loadsFrom_of_loadInto (exec_ld dr off s)⟩

/-- Settles O18: LDR is one load, from the base register plus the offset. -/
theorem ldrLoadsFromTheBaseRegister : Obligations.LdrLoadsFromTheBaseRegister :=
  ⟨fun _ => decode_ldr, fun dr base off s => loadsFrom_of_loadInto (exec_ldr dr base off s)⟩

/-! ### The load through a pointer -/

theorem exec_ldi (dr : Reg) (off : BitVec 9) (s : State) :
    exec (.ldi dr off) s = .next ((memRead (s.pc + sext off) s).finish fun p s1 => loadInto dr p s1) := rfl

/-- Once the pointer is read, LDI is one load, from the word the pointer names. -/
theorem exec_ldi_done {off : BitVec 9} {p : Word} {s s1 : State} (dr : Reg)
    (hptr : memRead (s.pc + sext off) s = .done p s1) : exec (.ldi dr off) s = .next (loadInto dr p s1) := by
  rw [exec_ldi, hptr, finish_done]

theorem exec_ldi_stopped {off : BitVec 9} {s s1 : State} (dr : Reg)
    (hptr : memRead (s.pc + sext off) s = .stopped s1) : exec (.ldi dr off) s = .next s1 := by
  rw [exec_ldi, hptr, finish_stopped]

theorem exec_ldi_ordinary {off : BitVec 9} {s : State} (dr : Reg) (hea : s.pc + sext off ≠ kbsr) :
    exec (.ldi dr off) s = .next (loadInto dr (s.word (s.pc + sext off)) s) :=
  exec_ldi_done dr (memRead_ordinary s hea)

theorem exec_ldr_zero (dr base : Reg) (s : State) : exec (.ldr dr base 0) s = .next (loadInto dr (s.reg base) s) := by
  rw [exec_ldr, show sext (0 : BitVec 6) = 0#16 by decide, BitVec.add_zero]

/-- Settles O19: the pointer is read first, and what follows is one load, from where the first read left the state. -/
theorem ldiLoadsThroughThePointer : Obligations.LdiLoadsThroughThePointer := by
  refine ⟨fun _ => decode_ldi, fun dr off s => ⟨fun hea hp => ?_, fun p s1 v s2 hptr hread => ?_, fun s1 hptr => ?_,
    fun p s1 s2 hptr hread => ?_, fun base hea hbase => ?_⟩⟩
  · exact ⟨_, (exec_ldi_ordinary dr hea).trans (congrArg _ (loadInto_ordinary dr s hp)), writeRegCC_wrote dr _ s⟩
  · obtain ⟨hload, hs1⟩ := loadInto_done (dr := dr) hread
    exact completes_after_reads ((exec_ldi_done dr hptr).trans (congrArg _ hload)) ((memRead_done hptr).trans hs1)
  · obtain ⟨hea, hfails⟩ := memRead_stopped hptr
    exact ⟨exec_ldi_stopped dr hptr, hea, stoppedByIo_of_fails hfails⟩
  · obtain ⟨hload, hfails⟩ := loadInto_stopped (dr := dr) hread
    exact ⟨(exec_ldi_done dr hptr).trans (congrArg _ hload), (memRead_stopped hread).1,
      stoppedByIo_of_fails ((memRead_done hptr).fails hfails), stoppedByIo_of_fails hfails⟩
  · rw [exec_ldi_ordinary dr hea, exec_ldr_zero, hbase]

/-! ### The address itself -/

theorem exec_lea (dr : Reg) (off : BitVec 9) (s : State) :
    exec (.lea dr off) s = .next (writeRegCC dr (s.pc + sext off) s) := rfl

/-- Settles O20: LEA is one write of a register with its flags. -/
theorem leaWritesTheAddressWithoutAccess : Obligations.LeaWritesTheAddressWithoutAccess :=
  ⟨fun _ => decode_lea, fun dr off s => ⟨_, exec_lea dr off s, writeRegCC_wrote dr _ s⟩⟩

/-! ### Stores -/

theorem exec_st (sr : Reg) (off : BitVec 9) (s : State) :
    exec (.st sr off) s = .next (memWrite (s.pc + sext off) (s.reg sr) s) := rfl

theorem exec_str (sr base : Reg) (off : BitVec 6) (s : State) :
    exec (.str sr base off) s = .next (memWrite (s.reg base + sext off) (s.reg sr) s) := rfl

/-- Settles O21: ST is one `MemWrite`, at the PC plus the offset. -/
theorem stStoresAtThePcRelativeAddress : Obligations.StStoresAtThePcRelativeAddress :=
  ⟨fun _ => decode_st, fun sr off s => ⟨_, exec_st sr off s, memWrite_wrote _ _ s⟩⟩

/-- Settles O22: STR is one `MemWrite`, at the base register plus the offset. -/
theorem strStoresAtTheBaseRegister : Obligations.StrStoresAtTheBaseRegister :=
  ⟨fun _ => decode_str, fun sr base off s => ⟨_, exec_str sr base off s, memWrite_wrote _ _ s⟩⟩

/-! ### The store through a pointer -/

theorem exec_sti (sr : Reg) (off : BitVec 9) (s : State) :
    exec (.sti sr off) s = .next ((memRead (s.pc + sext off) s).finish fun p s1 => memWrite p (s1.reg sr) s1) := rfl

/-- Once the pointer is read, STI is one `MemWrite`, of the register as it was before the read. -/
theorem exec_sti_done {off : BitVec 9} {p : Word} {s s1 : State} (sr : Reg)
    (hptr : memRead (s.pc + sext off) s = .done p s1) : exec (.sti sr off) s = .next (memWrite p (s.reg sr) s1) := by
  rw [exec_sti, hptr, finish_done, reg_of_regs (memRead_done hptr).regs sr]

theorem exec_sti_stopped {off : BitVec 9} {s s1 : State} (sr : Reg)
    (hptr : memRead (s.pc + sext off) s = .stopped s1) : exec (.sti sr off) s = .next s1 := by
  rw [exec_sti, hptr, finish_stopped]

/-- Settles O23: the pointer is read first, and what follows is one store, from where the read left the state. -/
theorem stiStoresThroughThePointer : Obligations.StiStoresThroughThePointer := by
  refine ⟨fun _ => decode_sti, fun sr off s => ⟨fun hea => ?_, fun p s1 hptr => ?_, fun s1 hptr => ?_⟩⟩
  · exact ⟨_, exec_sti_done sr (memRead_ordinary s hea), memWrite_wrote _ _ s⟩
  · have hs := memRead_done hptr
    exact ⟨_, exec_sti_done sr hptr, memWrite_wrote _ _ s1, reg_of_regs hs.regs, hs.cond, hs.pc, hs.run⟩
  · obtain ⟨hea, hfails⟩ := memRead_stopped hptr
    exact ⟨exec_sti_stopped sr hptr, hea, stoppedByIo_of_fails hfails⟩

end Sys2Proof.Machine
end

section
/-! PROOFS. The traps and the illegal encodings (43_trap_and_illegal.md): how their words decode, what each service does
when the console answers and when it fails, and the string services on a string in memory and on one without an end. -/

namespace Sys2Proof

/-! ### Decoding, by the opcode and the vector -/

theorem decode_trap {ir : Word} (hop : ir.extractLsb' 12 4 = 0b1111#4) :
    decode ir = decodeTrap (ir.extractLsb' 0 8) := by
  rw [decode, opcodeOf_of_field hop]
  rfl

theorem decode_trap_vector {ir : Word} {v : BitVec 8} (hop : ir.extractLsb' 12 4 = 0b1111#4)
    (hv : ir.extractLsb' 0 8 = v) : decode ir = decodeTrap v := by
  rw [decode_trap hop, hv]

/-- Settles O30: the decoder looks at the vector field alone, and outside 0x20 to 0x25 keeps it. -/
theorem trapDispatchesOnTheLowEightBits : Obligations.TrapDispatchesOnTheLowEightBits :=
  fun _ hop => ⟨decode_trap_vector hop, decode_trap_vector hop, decode_trap_vector hop, decode_trap_vector hop,
    decode_trap_vector hop, decode_trap_vector hop, fun hv => (decode_trap hop).trans (decodeTrap_undefined hv)⟩

theorem decode_halt_of_row {ir : Word} (h : ir &&& 0xF0FF = 0xF025) : decode ir = .halt :=
  decode_of_reads rfl ⟨(selects_iff_inRow .halt ir).mp (decide_eq_true h), trivial⟩

theorem decode_undefined_of_range {ir : Word} (hop : 0xF000 ≤ ir.toNat)
    (hv : ¬(0x20 ≤ ir.toNat % 256 ∧ ir.toNat % 256 ≤ 0x25)) : decode ir = .trapUndefined (ir.extractLsb' 0 8) := by
  obtain ⟨v, hdec⟩ := (decode_undefined_iff_range ir).mpr ⟨hop, hv⟩
  obtain ⟨-, -, hfield⟩ := decode_eq_iff.mp hdec
  exact hdec.trans (congrArg Instr.trapUndefined hfield.symm)

end Sys2Proof

namespace Sys2Proof.Machine

/-! ### Stopping -/

theorem exec_halt (s : State) : exec .halt s = .next (haltCore s) := rfl

theorem exec_trapUndefined (v : BitVec 8) (s : State) :
    exec (.trapUndefined v) s = .next (raiseFatal .illegalTrapVector s) := rfl

theorem exec_rti (s : State) : exec .rti s = .next (raiseFatal .illegalOpcode s) := rfl

theorem exec_res (s : State) : exec .res s = .next (raiseFatal .illegalOpcode s) := rfl

/-- Settles O36: the words are HALT's row of the table, and HALT writes RUN alone. -/
theorem haltOnlyStopsTheCore : Obligations.HaltOnlyStopsTheCore := ⟨fun _ => decode_halt_of_row, exec_halt⟩

/-- Settles O37: the words are those of TRAP without a service, and a fatal condition writes RUN alone. -/
theorem undefinedTrapVectorIsFatal : Obligations.UndefinedTrapVectorIsFatal :=
  ⟨fun _ => decode_undefined_of_range, exec_trapUndefined⟩

/-- Settles O38: the words are those of RTI's opcode, and a fatal condition writes RUN alone. -/
theorem rtiIsFatal : Obligations.RtiIsFatal :=
  ⟨fun ir hlo hhi => (decode_eq_rti_iff_range ir).mpr ⟨hlo, hhi⟩, exec_rti⟩

/-- Settles O39: the words are those of the reserved opcode, and a fatal condition writes RUN alone. -/
theorem reservedOpcodeIsFatal : Obligations.ReservedOpcodeIsFatal :=
  ⟨fun ir hlo hhi => (decode_eq_res_iff_range ir).mpr ⟨hlo, hhi⟩, exec_res⟩

/-! ### How many operations the console answers -/

theorem answers_of_failAfter {k : Nat} {c : Console} (h : c.failAfter = some k) : Answers k c :=
  fun _ hj => (Option.some.inj (h.symm.trans hj)).le

theorem answers_of_never_fails (n : Nat) {c : Console} (h : c.failAfter = none) : Answers n c :=
  fun k hk => by rw [h] at hk; cases hk

theorem after_failAfter_some (n : Nat) {m : Nat} {c : Console} (h : c.failAfter = some (n + m)) :
    (c.after n).failAfter = some m := by
  simp [Console.after, h]

theorem after_of_never_fails (n : Nat) {c : Console} (h : c.failAfter = none) : c.after n = c := by
  rw [Console.after, h, Option.map_none, ← h]

/-! ### Writing to the console -/

/-- The state after `n` answered operations of the console that wrote these characters. -/
def wrote (n : Nat) (chars : List Byte) (s : State) : State :=
  withConsole { s.console.after n with output := s.console.output ++ chars } s

theorem wrote_zero_nil (s : State) : wrote 0 [] s = s := by
  simp [wrote, withConsole, Console.after]

theorem wrote_wrote (m n : Nat) (xs ys : List Byte) (s : State) :
    wrote n ys (wrote m xs s) = wrote (m + n) (xs ++ ys) s := by
  rw [wrote, wrote, wrote, ← after_after, ← List.append_assoc]
  rfl

theorem wrote_answers {m n : Nat} (chars : List Byte) {s : State} (h : Answers (m + n) s.console) :
    Answers n (wrote m chars s).console := answers_after (c := s.console) h

theorem wrote_failAfter (m : Nat) {n : Nat} (chars : List Byte) {s : State} (h : s.console.failAfter = some (m + n)) :
    (wrote m chars s).console.failAfter = some n := after_failAfter_some m h

theorem consoleWrite_wrote {s : State} (ch : Byte) (h : Answers 1 s.console) :
    consoleWrite ch s = .done () (wrote 1 [ch] s) := consoleWrite_answered h

theorem consoleFlush_wrote {s : State} (h : Answers 1 s.console) : consoleFlush s = .done () (wrote 1 [] s) := by
  rw [consoleFlush_answered h, wrote, List.append_nil]
  rfl

theorem consoleWrite_fails {s : State} (ch : Byte) (h : s.console.failAfter = some 0) :
    consoleWrite ch s = .stopped (raiseFatal .ioFailure s) := by
  simp [consoleWrite, answer_fails h]

theorem consoleFlush_fails {s : State} (h : s.console.failAfter = some 0) :
    consoleFlush s = .stopped (raiseFatal .ioFailure s) := by
  simp [consoleFlush, answer_fails h]

theorem consoleWriteAll_append (xs ys : List Byte) (s : State) :
    consoleWriteAll (xs ++ ys) s = (consoleWriteAll xs s).andThen fun _ t => consoleWriteAll ys t := by
  induction xs generalizing s with
  | nil => rfl
  | cons x xs ih =>
    rw [List.cons_append, consoleWriteAll, consoleWriteAll]
    cases consoleWrite x s with
    | done _ t => exact ih t
    | stopped t => rfl

theorem consoleWriteAll_wrote {n : Nat} {chars : List Byte} {s : State} (hn : chars.length = n)
    (h : Answers n s.console) : consoleWriteAll chars s = .done () (wrote n chars s) := by
  subst hn
  induction chars generalizing s with
  | nil => rw [List.length_nil, wrote_zero_nil, consoleWriteAll]
  | cons ch rest ih =>
    rw [List.length_cons, Nat.add_comm] at h ⊢
    rw [consoleWriteAll, consoleWrite_wrote ch (answers_mono h (Nat.le_add_right ..)), andThen_done,
      ih (wrote_answers [ch] h), wrote_wrote, List.singleton_append]

/-! ### GETC and OUT -/

theorem exec_getc (s : State) : exec .getc s = .next (getcRead s) := rfl

theorem exec_out (s : State) :
    exec .out s = .next ((consoleWrite (lowByte (s.reg .r0)) s).andThen fun _ s1 => consoleFlush s1).state := rfl

theorem lowByte_toNat (w : Word) : (lowByte w).toNat = w.toNat % 256 := by
  rw [lowByte, BitVec.extractLsb'_toNat, Nat.shiftRight_zero]

theorem exec_getc_takes {s : State} {ch : Byte} {rest : List Byte} (hi : s.console.input = ch :: rest)
    (h : Answers 1 s.console) :
    exec .getc s = .next (writeReg .r0 (zext8 ch) (withConsole { s.console.after 1 with input := rest } s)) := by
  rw [exec_getc, getcRead_takes hi h]

theorem r0_of_character (ch : Byte) (s : State) : ((writeReg .r0 (zext8 ch) s).reg .r0).toNat = ch.toNat := by
  rw [writeReg_reg_same, zext8_toNat]

/-- Settles O31: the read takes the character or fails, and what follows is one write of R0. -/
theorem getcReadsOneCharacterIntoR0 : Obligations.GetcReadsOneCharacterIntoR0 := by
  refine ⟨fun s ch rest hi ha => ?_, fun s hf => ?_⟩
  · exact ⟨_, exec_getc_takes hi ha, r0_of_character ch _, fun q hq => writeReg_reg_ne _ _ hq, rfl, rfl, fun _ => rfl,
      rfl, rfl, rfl, rfl⟩
  · rw [exec_getc, getcRead_fails hf]
    rfl

theorem exec_out_answered {s : State} (h : Answers 2 s.console) :
    exec .out s = .next (wrote 2 [lowByte (s.reg .r0)] s) := by
  rw [exec_out, consoleWrite_wrote _ (answers_mono h (by decide)), andThen_done,
    consoleFlush_wrote (wrote_answers (m := 1) _ h), state_done, wrote_wrote, List.append_nil]

theorem exec_out_write_fails {s : State} (h : s.console.failAfter = some 0) :
    exec .out s = .next (raiseFatal .ioFailure s) := by
  rw [exec_out, consoleWrite_fails _ h, andThen_stopped, state_stopped]

theorem exec_out_flush_fails {s : State} (h : s.console.failAfter = some 1) :
    exec .out s = .next (raiseFatal .ioFailure (wrote 1 [lowByte (s.reg .r0)] s)) := by
  rw [exec_out, consoleWrite_wrote _ (answers_of_failAfter h), andThen_done,
    consoleFlush_fails (wrote_failAfter 1 _ h), state_stopped]

/-- Settles O32: the write and the flush are answered, or one of them fails. -/
theorem outWritesTheLowByteOfR0 : Obligations.OutWritesTheLowByteOfR0 :=
  ⟨fun s ha => ⟨_, lowByte_toNat (s.reg .r0), exec_out_answered ha⟩, fun _ hf => exec_out_write_fails hf,
    fun _ hf => ⟨_, exec_out_flush_fails hf, rfl, rfl, rfl, fun _ => rfl, rfl, rfl, fun _ => rfl, rfl, rfl⟩⟩

/-! ### IN -/

theorem exec_in (s : State) :
    exec .inTrap s = .next (((consoleWriteAll s.params.inPrompt s).andThen fun _ s1 => consoleFlush s1).finish
      fun _ s2 => inRead s2) := rfl

/-- Once the prompt is written and flushed, IN is at its read. -/
theorem exec_in_prompted {s : State} (h : Answers (s.params.inPrompt.length + 1) s.console) :
    exec .inTrap s = .next (inRead (wrote (s.params.inPrompt.length + 1) s.params.inPrompt s)) := by
  rw [exec_in, consoleWriteAll_wrote rfl (answers_mono h (Nat.le_succ _)), andThen_done,
    consoleFlush_wrote (wrote_answers _ h), finish_done, wrote_wrote, List.append_nil]

/-- A console that answers nothing any more stops a prompt at its first character, or at the flush when it has none. -/
theorem writeAll_flush_fails (chars : List Byte) {s : State} (h : s.console.failAfter = some 0) :
    ((consoleWriteAll chars s).andThen fun _ t => consoleFlush t) = .stopped (raiseFatal .ioFailure s) := by
  cases chars with
  | nil => exact consoleFlush_fails h
  | cons ch rest => rw [consoleWriteAll, consoleWrite_fails ch h, andThen_stopped, andThen_stopped]

theorem exec_in_prompt_fails {k : Nat} {s : State} (hk : k ≤ s.params.inPrompt.length)
    (h : s.console.failAfter = some k) :
    exec .inTrap s = .next (raiseFatal .ioFailure (wrote k (s.params.inPrompt.take k) s)) := by
  have hlen : (s.params.inPrompt.take k).length = k := List.length_take_of_le hk
  have hwrote : consoleWriteAll (s.params.inPrompt.take k) s = .done () (wrote k (s.params.inPrompt.take k) s) :=
    consoleWriteAll_wrote hlen (answers_of_failAfter h)
  have hsplit : consoleWriteAll s.params.inPrompt s =
      consoleWriteAll (s.params.inPrompt.drop k) (wrote k (s.params.inPrompt.take k) s) := by
    conv_lhs => rw [← List.take_append_drop k s.params.inPrompt, consoleWriteAll_append, hwrote, andThen_done]
  rw [exec_in, hsplit, writeAll_flush_fails _ (wrote_failAfter k _ h), finish_stopped]

theorem inRead_echo_fails {s : State} {ch : Byte} {rest : List Byte} (hi : s.console.input = ch :: rest)
    (h : s.console.failAfter = some 1) :
    inRead s = raiseFatal .ioFailure (withConsole { s.console.after 1 with input := rest } s) := by
  rw [inRead, consoleRead_takes hi (answers_of_failAfter h), andThen_done,
    consoleWrite_fails ch (after_failAfter_some 1 h), andThen_stopped, finish_stopped]

theorem inRead_flush_fails {s : State} {ch : Byte} {rest : List Byte} (hi : s.console.input = ch :: rest)
    (h : s.console.failAfter = some 2) :
    inRead s = raiseFatal .ioFailure (wrote 1 [ch] (withConsole { s.console.after 1 with input := rest } s)) := by
  have h1 : (withConsole { s.console.after 1 with input := rest } s).console.failAfter = some 1 :=
    after_failAfter_some 1 h
  rw [inRead, consoleRead_takes hi (answers_mono (answers_of_failAfter h) (by decide)), andThen_done,
    consoleWrite_wrote ch (answers_of_failAfter h1), andThen_done, consoleFlush_fails (wrote_failAfter 1 _ h1),
    andThen_stopped, finish_stopped]

theorem inEndsEarly_of_console {written unread : List Byte} {s : State} {c : Console}
    (ho : c.output = s.console.output ++ written) (hi : c.input = unread) :
    InEndsEarly written unread s (withConsole c s) :=
  ⟨ho, hi, fun _ => rfl, rfl, rfl, fun _ => rfl, rfl⟩

/-- An IN whose console fails has changed RUN and the console only. -/
theorem exec_in_failed {written unread : List Byte} {s : State} {c : Console}
    (h : exec .inTrap s = .next (raiseFatal .ioFailure (withConsole c s)))
    (ho : c.output = s.console.output ++ written) (hi : c.input = unread) :
    ∃ t, exec .inTrap s = .next t ∧ InEndsEarly written unread s t ∧ t.run = .faulted .ioFailure ∧ t.held = s.held :=
  ⟨_, h, inEndsEarly_of_console ho hi, rfl, rfl⟩

theorem exec_in_takes {s : State} {ch : Byte} {rest : List Byte} (hi : s.console.input = ch :: rest)
    (h : Answers (s.params.inPrompt.length + 4) s.console) :
    exec .inTrap s = .next (writeReg .r0 (zext8 ch) (withConsole
      { s.console.after (s.params.inPrompt.length + 4) with
        input := rest, output := s.console.output ++ s.params.inPrompt ++ [ch] } s)) := by
  have hread : Answers 3 (wrote (s.params.inPrompt.length + 1) s.params.inPrompt s).console := wrote_answers _ h
  rw [exec_in_prompted (answers_mono h (by omega)), inRead_takes (s := wrote _ _ s) hi hread,
    ← after_after (s.params.inPrompt.length + 1) 3]
  rfl

theorem exec_in_waits {s : State} (hi : s.console.input = []) (h : Answers (s.params.inPrompt.length + 2) s.console) :
    exec .inTrap s = .next (holdAt .inRead (wrote (s.params.inPrompt.length + 1) s.params.inPrompt s)) := by
  rw [exec_in_prompted (answers_mono h (by omega)), inRead_waits (s := wrote _ _ s) hi (wrote_answers _ h)]

/-- A console that fails `n` operations after the prompt and its flush fails in the part of IN from its read on. -/
theorem exec_in_of_failAfter {n : Nat} {s : State} (h : s.console.failAfter = some (s.params.inPrompt.length + 1 + n)) :
    exec .inTrap s = .next (inRead (wrote (s.params.inPrompt.length + 1) s.params.inPrompt s)) ∧
    (wrote (s.params.inPrompt.length + 1) s.params.inPrompt s).console.failAfter = some n :=
  ⟨exec_in_prompted (answers_mono (answers_of_failAfter h) (Nat.le_add_right ..)), wrote_failAfter _ _ h⟩

/-- Settles O35: the prompt is written or fails; then the read waits or takes a character; then each of the read, the
echo and the flush is answered or fails. -/
theorem inPromptsReadsEchoesIntoR0 : Obligations.InPromptsReadsEchoesIntoR0 := by
  refine ⟨fun s ch rest hi ha => ?_, fun s hi ha => ?_, fun s k hk hf => ?_, fun s hf => ?_,
    fun s ch rest hi hf => ?_, fun s ch rest hi hf => ?_⟩
  · exact ⟨_, exec_in_takes hi ha, r0_of_character ch _, fun q hq => writeReg_reg_ne _ _ hq, rfl, rfl, fun _ => rfl,
      rfl, rfl, rfl, rfl⟩
  · exact ⟨_, exec_in_waits hi ha, inEndsEarly_of_console rfl hi, rfl, rfl⟩
  · exact exec_in_failed (exec_in_prompt_fails hk hf) rfl rfl
  · obtain ⟨he, hf⟩ := exec_in_of_failAfter (n := 0) hf
    exact exec_in_failed (he.trans (congrArg _ (inRead_fails hf))) rfl rfl
  · obtain ⟨he, hf⟩ := exec_in_of_failAfter (n := 1) hf
    exact exec_in_failed (he.trans (congrArg _ (inRead_echo_fails hi hf))) rfl rfl
  · obtain ⟨he, hf⟩ := exec_in_of_failAfter (n := 2) hf
    exact exec_in_failed (he.trans (congrArg _ (inRead_flush_fails hi hf))) (List.append_assoc ..) rfl

/-! ### A string in memory -/

theorem exec_puts (s : State) : exec .puts s = .next (putsFrom (s.reg .r0) s) := rfl

theorem exec_putsp (s : State) : exec .putsp s = .next (putspFrom (s.reg .r0) s) := rfl

theorem StringAt.wrote {s : State} {p : Word} {ws : List Word} (h : StringAt s p ws) (n : Nat) (chars : List Byte) :
    StringAt (wrote n chars s) p ws := by
  induction ws generalizing p with
  | nil => exact h
  | cons w ws ih =>
    obtain ⟨hp, hw, hne, htail⟩ := h
    exact ⟨hp, hw, hne, ih htail⟩

/-- The loop on a string it meets the end of: every word's characters are written, one operation each, and the flush
is one more. -/
theorem stringLoop_stringAt (chars : Word → List Byte) (atEnd : Word → State → Result Unit) {n : Nat} {p : Word}
    {s : State} {ws : List Word} (h : StringAt s p ws) (hn : ws.length < n)
    (ha : Answers ((ws.flatMap chars).length + 1) s.console) :
    stringLoop chars atEnd n p s = .done () (wrote ((ws.flatMap chars).length + 1) (ws.flatMap chars) s) := by
  induction ws generalizing n p s with
  | nil =>
    obtain ⟨hp, hw⟩ := h
    obtain ⟨n, rfl⟩ := Nat.exists_eq_add_one.mpr hn
    rw [stringLoop, memRead_ordinary s hp, andThen_done, if_pos hw, consoleFlush_wrote ha]
    rfl
  | cons w ws ih =>
    obtain ⟨hp, rfl, hne, htail⟩ := h
    obtain ⟨n, rfl⟩ := Nat.exists_eq_add_one.mpr (Nat.zero_lt_of_lt hn)
    rw [List.flatMap_cons, List.length_append, Nat.add_assoc] at ha ⊢
    rw [stringLoop, memRead_ordinary s hp, andThen_done, if_neg hne,
      consoleWriteAll_wrote rfl (answers_mono ha (Nat.le_add_right ..)), andThen_done,
      ih (htail.wrote _ _) (Nat.lt_of_succ_lt_succ hn) (wrote_answers _ ha), wrote_wrote]

/-- A string service on a string of less than a round of words, with a console that never fails. -/
theorem stringService_stringAt (chars : Word → List Byte) (resumeAt : Word → Held) {p : Word} {s : State}
    {ws : List Word} (h : StringAt s p ws) (hn : ws.length < 65536) (hf : s.console.failAfter = none) :
    (stringService chars resumeAt p s).state =
      withConsole { s.console with output := s.console.output ++ ws.flatMap chars } s := by
  rw [stringService, stringLoop_stringAt chars _ h hn (answers_of_never_fails _ hf), state_done, wrote,
    after_of_never_fails _ hf]

/-- Settles O33: what PUTS writes of a word is its low byte. -/
theorem putsWritesTheLowBytesOfTheString : Obligations.PutsWritesTheLowBytesOfTheString := by
  intro s ws h hn hf
  rw [exec_puts, putsFrom, stringService_stringAt putsChars .putsAt h hn hf, List.map_eq_flatMap]
  rfl

/-- Settles O34: what PUTSP writes of a word is its low byte, and its high byte when that is not zero. -/
theorem putspWritesLowThenNonzeroHighBytes : Obligations.PutspWritesLowThenNonzeroHighBytes := by
  intro s ws h hn hf
  rw [exec_putsp, putspFrom, stringService_stringAt putspChars .putspAt h hn hf]
  rfl

/-! ### A string without an end -/

theorem StringReaches.readsWords {chars : Word → List Byte} {p q : Word} {s t : State}
    (h : StringReaches chars p s q t) : ∃ n, ReadsWords chars n p s t := by
  induction h with
  | here p s => exact ⟨0, rfl⟩
  | word h1 hw h2 _ ih =>
    obtain ⟨n, hn⟩ := ih
    exact ⟨n + 1, _, ⟨_, _, h1, hw, h2⟩, hn⟩

theorem Unending.endless {s : State} (h : Unending s) : Endless { s with held := none } := by
  obtain ⟨-, -, hwords, hstatus, hmode, hinput, hfail⟩ := h
  exact ⟨.inl hinput, hfail, fun a _ => hwords a, by rw [hmode]; exact hstatus⟩

/-- An endless loop is left held on its way. -/
theorem held_of_follows_endless {chars : Word → List Byte} {resumeAt : Word → Held} {p : Word} {s t : State}
    (h : FollowsStringLoop chars resumeAt p s t) (hs : Endless s) :
    ∃ q n, t.held = some (resumeAt q) ∧ ReadsWords chars n p s { t with held := none } := by
  obtain ⟨hends, hheld⟩ := h
  obtain ⟨-, q, hq, hreach⟩ := hheld fun hnone => hs.not_stringRun ((hends hnone t).mpr rfl)
  obtain ⟨n, hn⟩ := hreach.readsWords
  exact ⟨q, n, hq, hn⟩

/-- Words that are read and written leave a service without an end without one: only KBSR changes in memory, and an idle
poll keeps its bits 14:0. -/
theorem Unending.of_readsWords {chars : Word → List Byte} {n : Nat} {p q : Word} {s t : State} (hs : Unending s)
    (hq : t.held = some (.putsAt q) ∨ t.held = some (.putspAt q))
    (h : ReadsWords chars n p { s with held := none } { t with held := none }) : Unending t := by
  have hend := hs.endless
  obtain ⟨hrun, -, hwords, hstatus, hmode, hinput, hfail⟩ := hs
  obtain ⟨hparams, hkept, hidle⟩ := readsWords_settled_frame n hend.settled h
  have hgo := readsWords_goesOn n h
  have hmode' : t.params.pollMode = .bit15Only := (congrArg Params.pollMode hparams).trans hmode
  have hstatus' : t.word kbsr &&& 0x7FFF ≠ 0 := by
    simp only [hmode, statusIdle] at hidle
    exact fun h0 => hstatus (hidle.symm.trans h0)
  have hinput' : t.console.input = [] := by
    obtain ⟨taken, htaken⟩ := hgo.input
    exact (List.append_eq_nil_iff.mp (htaken.symm.trans hinput)).2
  refine ⟨hgo.run.trans hrun, ⟨q, hq⟩, fun a h0 => ?_, hstatus', hmode', hinput', hgo.failAfter hfail⟩
  by_cases ha : a = kbsr
  · subst ha
    exact hstatus' (by rw [h0]; rfl)
  · exact hwords a ((hkept a ha).symm.trans h0)

/-- A step that follows the loop of a service without an end leaves it in progress. -/
theorem Unending.of_follows {chars : Word → List Byte} {resumeAt : Word → Held} {p : Word} {s t : State}
    (hs : Unending s) (hres : ∀ q, resumeAt q = .putsAt q ∨ resumeAt q = .putspAt q)
    (h : FollowsStringLoop chars resumeAt p { s with held := none } t) :
    Unending t ∧ SameRegs s t ∧ t.cond = s.cond ∧ t.pc = s.pc := by
  obtain ⟨q, n, hq, hn⟩ := held_of_follows_endless h hs.endless
  have hgo := readsWords_goesOn n hn
  have hheld := (hres q).imp (fun e => hq.trans (congrArg some e)) (fun e => hq.trans (congrArg some e))
  exact ⟨hs.of_readsWords hheld hn, reg_of_regs hgo.regs, hgo.cond, hgo.pc⟩

/-- Settles O41: a resumed step follows the loop of the spec, which has no end, so it is held again. -/
theorem unendingStringNeverCompletes : Obligations.UnendingStringNeverCompletes := by
  intro s hs
  have ⟨hrun, ⟨p, hheld⟩, _⟩ := hs
  rcases hheld with hp | hp
  · exact ⟨_, step_held hrun hp, hs.of_follows (fun _ => .inl rfl) (putsFrom_follows p rfl)⟩
  · exact ⟨_, step_held hrun hp, hs.of_follows (fun _ => .inr rfl) (putspFrom_follows p rfl)⟩

end Sys2Proof.Machine
end

section
/-! PROOFS. The exceptions (60_exceptions.md): what a fatal condition changes, the ways a running core stops, what such
a step leaves, and the invariant. All rests on what changes RUN: HALT, an illegal instruction, or a failing console. -/

namespace Sys2Proof.Machine

/-! ### A fatal condition -/

/-- Settles O45: a fatal condition writes RUN alone, and a core that does not run stays as it is. -/
theorem fatalConditionChangesOnlyRun : Obligations.FatalConditionChangesOnlyRun :=
  fun c s => ⟨rfl, fun _ => rfl, fun _ => rfl, rfl, rfl, step_stopped (s := raiseFatal c s) (by simp)⟩

/-! ### What changes RUN -/

/-- RUN is as it was, or the console failed and changed only what a failing console does: what every instruction does
that does not itself write RUN. -/
def RunKeptOrFails (s t : State) : Prop := t.run = s.run ∨ Fails s t

theorem GoesOn.runKeptOrFails {s t u : State} (hg : GoesOn s t) (h : RunKeptOrFails t u) : RunKeptOrFails s u :=
  h.imp (·.trans hg.run) hg.fails

theorem Result.Plain.finish_runKeptOrFails {α : Type} {s : State} {r : Result α} {k : α → State → State}
    (h : r.Plain s) (hk : ∀ a u, RunKeptOrFails u (k a u)) : RunKeptOrFails s (r.finish k) := by
  rcases h.finish_cases k with ⟨a, u, hu, e⟩ | hf
  · exact e ▸ hu.runKeptOrFails (hk a u)
  · exact .inr hf

theorem loadInto_runKeptOrFails (dr : Reg) (a : Word) (s : State) : RunKeptOrFails s (loadInto dr a s) :=
  (memRead_plain a s).finish_runKeptOrFails fun _ _ => .inl rfl

/-- A service whose RUN is not as it was has failed, R0 unwritten. -/
theorem ServiceEnds.runKeptOrFails {s t : State} (h : ServiceEnds s t) : RunKeptOrFails s t := by
  rcases h.ends with ⟨hrun, -⟩ | ⟨hregs, hrun, hheld, hfailed, n, hn⟩
  · exact .inl hrun
  · have hfail : s.console.failAfter = none → t.console.failAfter = none := fun hs => by cases hs.symm.trans hn
    exact .inr ⟨⟨hregs, h.cond, h.pc, h.params, h.words, h.wf, h.input, h.output, hfail, h.polls⟩,
      hrun, hheld, hfailed⟩

/-- HALT and the illegal instructions write RUN alone (R157 to R160). -/
theorem exec_eq_of_writesRun {i : Instr} {s t : State} {r : Run} (h : exec i s = .next t)
    (hi : writesRun i = some r) : t = { s with run := r } := by
  cases i <;> cases hi <;> cases h <;> rfl

theorem exec_runKeptOrFails {i : Instr} {s t : State} (h : exec i s = .next t) (hi : writesRun i = none) :
    RunKeptOrFails s t := by
  cases i <;> injection h with h <;> subst h
  case halt | rti | res | trapUndefined => cases hi
  case ld | ldr => exact loadInto_runKeptOrFails _ _ s
  case ldi => exact (memRead_plain _ s).finish_runKeptOrFails fun _ _ => loadInto_runKeptOrFails _ _ _
  case sti => exact (memRead_plain _ s).finish_runKeptOrFails fun _ _ => .inl rfl
  case getc => exact (getcRead_ends s).runKeptOrFails
  case out => exact (out_ends s).runKeptOrFails
  case inTrap => exact (inTrap_ends s).runKeptOrFails
  case puts => exact (putsFrom_ends _ s).1.runKeptOrFails
  case putsp => exact (putspFrom_ends _ s).1.runKeptOrFails
  case br => exact .inl (by split <;> rfl)
  all_goals exact .inl rfl

/-- An instruction that changes RUN has written it alone, or the console has failed. -/
theorem exec_changes_run {i : Instr} {s t : State} (h : exec i s = .next t) (ht : t.run ≠ s.run) :
    Fails s t ∨ ∃ r, writesRun i = some r ∧ t = { s with run := r } := by
  cases hi : writesRun i with
  | none => exact .inl ((exec_runKeptOrFails h hi).resolve_left ht)
  | some r => exact .inr ⟨r, rfl, exec_eq_of_writesRun h hi⟩

/-! ### How a running core stops -/

/-- The ways a step of a running core stops it (R180): the console fails in a held step; it fails in the fetch or in
the instruction; or the instruction writes RUN. -/
inductive StepStops (s t : State) : Prop where
  | heldFails {q : Held} (hh : s.held = some q) (hf : Fails { s with held := none } t)
  | fails (hh : s.held = none) (hf : Fails (pcPast s) t)
  | runWritten {ir : Word} {s1 : State} {r : Run} (hh : s.held = none) (hfetch : fetch s = .done ir s1)
      (hg : GoesOn (pcPast s) s1) (hr : writesRun (decode ir) = some r) (ht : t = { s1 with run := r })

theorem step_stops {s t : State} (hr : s.run = .running) (h : step s = .next t) (ht : t.run ≠ .running) :
    StepStops s t := by
  rcases step_cases h with ⟨hs, -⟩ | ⟨-, q, hq, rfl⟩ | ⟨-, hh, hf⟩ | ⟨-, hh, ir, s1, hfetch, hg, he⟩
  · exact absurd hr hs
  · exact .heldFails hq ((resumeHeld_ends q s).runKeptOrFails.resolve_left fun hkept => ht (hkept.trans hr))
  · exact .fails hh hf
  · have hchange : t.run ≠ s1.run := fun hkept => ht (hkept.trans (hg.run.trans hr))
    rcases exec_changes_run he hchange with hf | ⟨r, hw, rfl⟩
    · exact .fails hh (hg.fails hf)
    · exact .runWritten hh hfetch hg hw rfl

theorem writesRun_cases {i : Instr} {r : Run} (h : writesRun i = some r) :
    (i = .halt ∧ r = .halted) ∨ ((i = .rti ∨ i = .res) ∧ r = .faulted .illegalOpcode) ∨
      ((∃ v, i = .trapUndefined v) ∧ r = .faulted .illegalTrapVector) := by
  cases i <;> cases h <;> simp

/-- Settles O51: the console failed, or the instruction is one of those that write RUN. -/
theorem coreStopsInTwoWaysOnly : Obligations.CoreStopsInTwoWaysOnly := by
  intro s t hr h ht
  cases step_stops hr h ht with
  | heldFails _ hf => exact .inr ⟨hf.run, hf.failed, hf.some⟩
  | fails _ hf => exact .inr ⟨hf.run, hf.failed, hf.some⟩
  | @runWritten ir s1 r hh hfetch _ hw ht =>
    refine .inl ⟨ir, s1, hh, hfetch, ?_⟩
    rcases writesRun_cases hw with ⟨hi, rfl⟩ | ⟨hi, rfl⟩ | ⟨hi, rfl⟩
    · exact .inl ⟨hi, ht⟩
    · exact .inr (.inl ⟨hi, ht⟩)
    · exact .inr (.inr ⟨hi, ht⟩)

/-- Settles O52: the fetch moved the PC one past; neither a failing console nor a write of RUN touches it, a register
or COND. -/
theorem fatalConditionsArePrecise : Obligations.FatalConditionsArePrecise := by
  intro s t c hr hh h ht
  have hstops : t.run ≠ .running := by simp [ht]
  cases step_stops hr h hstops with
  | heldFails hq => cases hh.symm.trans hq
  | fails _ hf => exact ⟨hf.pc, reg_of_regs hf.regs, hf.cond⟩
  | runWritten _ _ hg _ ht => subst ht; exact ⟨hg.pc, reg_of_regs hg.regs, hg.cond⟩

/-! ### The invariant -/

theorem exec_wf {i : Instr} {s t : State} (h : exec i s = .next t) (hs : Memory.wf s.mem = true) :
    Memory.wf t.mem = true := by
  cases exec_effect h with
  | completes _ _ _ hu ht => rw [ht]; exact hu.wf hs
  | readFails _ ht => exact ht.wf hs
  | stores _ _ _ hu ht => rw [ht]; exact memWrite_wf _ _ (hu.wf hs)
  | serves _ _ ht => exact ht.wf hs
  | transfers _ hu ht => obtain rfl | ⟨-, rfl⟩ := hu <;> rw [ht] <;> exact hs
  | stops _ _ ht => rw [ht]; exact hs

theorem step_wf {s t : State} (h : step s = .next t) (hs : Memory.wf s.mem = true) : Memory.wf t.mem = true := by
  rcases step_cases h with ⟨-, rfl⟩ | ⟨-, q, -, rfl⟩ | ⟨-, -, hf⟩ | ⟨-, -, ir, s1, -, hg, he⟩
  · exact hs
  · exact (resumeHeld_ends q s).wf hs
  · exact hf.wf hs
  · exact exec_wf he (hg.wf hs)

/-- A step that stops the core holds nothing: it began with nothing held, and what stopped it holds nothing. -/
theorem StepStops.held {s t : State} (h : StepStops s t) : t.held = none := by
  cases h with
  | heldFails _ hf => exact hf.held
  | fails hh hf => exact hf.held.trans hh
  | runWritten hh _ hg _ ht => rw [ht]; exact hg.held.trans hh

/-- Settles O50: every store is canonical, and of a running core's steps those that stop it hold nothing. -/
theorem everyStepKeepsTheInvariant : Obligations.EveryStepKeepsTheInvariant := by
  rintro s t ⟨hwf, hheld⟩ h
  refine ⟨step_wf h hwf, fun ht => ?_⟩
  by_cases hr : s.run = .running
  · by_contra hstops
    exact ht (step_stops hr h hstops).held
  · rw [step_stopped hr] at h
    cases h
    exact hheld ht

end Sys2Proof.Machine
end

section
/-! PROOFS. Reset and the loader (70_reset_and_hazards.md): what reset restores and keeps, the words of an image, and
the memory the loader leaves. -/

namespace Sys2Proof.Machine

/-! ### Reset -/

/-- Settles O48: `applyReset` replaces every field named here but the memory and the console's input. -/
theorem resetRestartsTheCoreAndKeepsMemory : Obligations.ResetRestartsTheCoreAndKeepsMemory :=
  fun _ => ⟨fun r => by cases r <;> rfl, rfl, rfl, rfl, rfl, rfl, rfl, rfl⟩

/-! ### The words of an image -/

@[simp] theorem imageWords_nil : imageWords [] = some [] := rfl

@[simp] theorem imageWords_cons_cons (hi lo : Byte) (rest : List Byte) :
    imageWords (hi :: lo :: rest) = (imageWords rest).map fun ws => (hi ++ lo : BitVec 16) :: ws := rfl

/-- A word of the big-endian stream (R57): the first byte is the high one. -/
theorem append_bytes_toNat (hi lo : Byte) : (hi ++ lo : BitVec 16).toNat = 256 * hi.toNat + lo.toNat := by
  rw [BitVec.toNat_append, ← Nat.shiftLeft_add_eq_or_of_lt lo.isLt, Nat.shiftLeft_eq, Nat.mul_comm]

theorem imageWords_of_odd {bytes : List Byte} (h : bytes.length % 2 = 1) : imageWords bytes = none := by
  induction bytes using imageWords.induct with
  | case1 => cases h
  | case2 => rfl
  | case3 hi lo rest ih => simp [ih ((Nat.add_mod_right _ 2).symm.trans h)]

theorem imageWords_of_even {bytes : List Byte} (h : bytes.length % 2 = 0) :
    ∃ ws, imageWords bytes = some ws ∧ 2 * ws.length = bytes.length ∧ ∀ k, k < ws.length →
      (ws.getD k 0).toNat = 256 * (bytes.getD (2 * k) 0).toNat + (bytes.getD (2 * k + 1) 0).toNat := by
  induction bytes using imageWords.induct with
  | case1 => exact ⟨[], rfl, rfl, nofun⟩
  | case2 => cases h
  | case3 hi lo rest ih =>
    obtain ⟨ws, hws, hlen, hword⟩ := ih ((Nat.add_mod_right _ 2).symm.trans h)
    refine ⟨(hi ++ lo : BitVec 16) :: ws, by simp [hws], by simp only [List.length_cons]; omega, fun k hk => ?_⟩
    cases k with
    | zero => exact append_bytes_toNat hi lo
    | succ k => exact hword k (Nat.lt_of_succ_lt_succ hk)

/-! ### The memory the loader leaves -/

/-- The copy of R222, read at an address of the machine: inside the range of the words it is the word copied there. -/
theorem lookup_storeWords (a : Nat) (ws : List Word) (m : Memory) {b : Nat} (hb : b < 65536) :
    Memory.lookup (storeWords a ws m) b =
      if a ≤ b ∧ b < a + ws.length then ws.getD (b - a) 0 else Memory.lookup m b := by
  induction ws generalizing a m with
  | nil => rw [if_neg (by simp)]; rfl
  | cons w ws ih =>
    by_cases ha : a < 65536
    · have hstore : storeWords a (w :: ws) m = storeWords (a + 1) ws (Memory.store m a w) := if_pos ha
      rw [hstore, ih, lookup_store, List.length_cons]
      rcases Nat.lt_trichotomy b a with hlt | rfl | hgt
      · rw [if_neg (by omega), if_neg (by omega), if_neg (by omega)]
      · rw [if_neg (by omega), if_pos rfl, if_pos (by omega), Nat.sub_self, List.getD_cons_zero]
      · have hsub : b - a = b - (a + 1) + 1 := by omega
        rw [if_neg (show b ≠ a by omega), hsub, List.getD_cons_succ]
        exact if_congr (by omega) rfl rfl
    · have hstop : storeWords a (w :: ws) m = m := if_neg ha
      rw [hstop, if_neg (by omega)]

theorem loadImage_of_imageWords {bytes : List Byte} {origin : Word} {ws : List Word} (m : Memory)
    (h : imageWords bytes = some (origin :: ws)) : loadImage bytes m = some (storeWords origin.toNat ws m) := by
  simp [loadImage, h]

theorem loadImage_origin_alone (hi lo : Byte) (m : Memory) : loadImage [hi, lo] m = some m :=
  loadImage_of_imageWords (origin := hi ++ lo) (ws := []) m rfl

theorem loadImage_refuses {bytes : List Byte} (m : Memory) (h : bytes.length % 2 = 1 ∨ bytes = []) :
    loadImage bytes m = none := by
  rcases h with hodd | rfl
  · simp [loadImage, imageWords_of_odd hodd]
  · rfl

/-- Settles O59, from the words of an image and the memory the copy leaves. -/
theorem loaderCopiesTheImageFromItsOrigin : Obligations.LoaderCopiesTheImageFromItsOrigin :=
  ⟨fun _ => imageWords_of_even,
   fun _ origin ws m h =>
    ⟨_, loadImage_of_imageWords m h, fun a => lookup_storeWords origin.toNat ws m a.isLt⟩,
   loadImage_origin_alone,
   fun _ m => loadImage_refuses m⟩

end Sys2Proof.Machine
end

section
/-! PROOFS. The spec's worked examples (95_test_vectors.md sections 2.2 to 2.8): register numbers and written-out words. -/

namespace Sys2Proof.Machine

/-- Settles O6: the map from numbers to registers inverts the numbering of the registers, and the decoder, a function
that computes, is evaluated at each of the 26 words. -/
theorem wordsOfTheSpecDecode : Obligations.WordsOfTheSpecDecode :=
  ⟨reg_bits_ofBits, by decide⟩

end Sys2Proof.Machine
end
